-- ==== Sys2Proof/Word.lean ====
section
/-! DEFINITION. The units of the block: bytes, line levels and 16-byte payloads (00_scope.md R4, R6). -/

namespace Sys2Proof

/-- A byte, 8 bits, bit 0 the least significant (R4, R6). -/
abbrev Byte := BitVec 8

/-- The level of a line: `false` is 0 (low), `true` is 1 (high) (R7). -/
abbrev Level := Bool

/-- Sixteen bytes: the frame buffer, or the payload `p[0..15]` of format F16 (R10, R51). -/
abbrev Bytes16 := Vector Byte 16

end Sys2Proof
end

