-- ==== Sys2Proof/Syntax.lean ====
section
/-! DEFINITION. The 15 commands, one constructor per row of spec/opcode_table.json (30_encoding.md R51, R55). -/

namespace Sys2Proof

/-- A command with its operands as the packet carries them. Coordinates and sizes are bytes still to be read as signed
(R52); `state` is the pixel value, already known to be 0 or 1 (R53); payloads are bytes (R54). -/
inductive Instr where
  /-- INIT, R120. -/
  | init
  /-- RDST, R122. -/
  | rdst
  /-- CLRST, R123. -/
  | clrst
  /-- FBGET `row`, `col`, R70. -/
  | fbget (row col : Byte)
  /-- FBSET `row`, `col`, `state`, R71. -/
  | fbset (row col : Byte) (state : Bool)
  /-- FBCLR, R72. -/
  | fbclr
  /-- FBLOAD `p[0..15]`, R73. -/
  | fbload (p : Bytes16)
  /-- REFRESH, R100. -/
  | refresh
  /-- TXWRITE `addr`, `d[0..n-1]`, R102. -/
  | txwrite (addr : Byte) (d : List Byte)
  /-- PWRON, R104. -/
  | pwron
  /-- SETPIX `row`, `col`, `state`, R80. -/
  | setpix (row col : Byte) (state : Bool)
  /-- RECT `x`, `y`, `w`, `h`, `state`, R82. -/
  | rect (x y w h : Byte) (state : Bool)
  /-- LINE `r0`, `c0`, `r1`, `c1`, R84. -/
  | line (r0 c0 r1 c1 : Byte)
  /-- IMAGE `p[0..15]`, R87. -/
  | image (p : Bytes16)
  /-- WINDOW `p[0..15]`, R88. -/
  | window (p : Bytes16)
deriving DecidableEq, Repr

end Sys2Proof
end

