-- ==== Sys2Proof/WellFormed.lean ====
section
/-! DEFINITION. Which instructions a packet can carry (30_encoding.md R51). -/

namespace Sys2Proof

/-- An instruction that some packet of 1 to 18 bytes carries. The types of `Instr` already fix 16 payload bytes for F16 and
a pixel value of 0 or 1; what is left is TXWRITE's payload, `0 <= n <= 16` (R51). -/
def Instr.wellFormed : Instr → Bool
  | .init => true
  | .rdst => true
  | .clrst => true
  | .fbget _ _ => true
  | .fbset _ _ _ => true
  | .fbclr => true
  | .fbload _ => true
  | .refresh => true
  | .txwrite _ d => decide (d.length ≤ 16)
  | .pwron => true
  | .setpix _ _ _ => true
  | .rect _ _ _ _ _ => true
  | .line _ _ _ _ => true
  | .image _ => true
  | .window _ => true

end Sys2Proof
end

