-- ==== Sys2Proof/Decode.lean ====
section
/-! DEFINITION. Decoding a packet (30_encoding.md R50 to R58), the encoder, and the table's own numbering of the bits. -/

namespace Sys2Proof

/-- The 15 mnemonics of R55, without operands. -/
inductive Op where
  | init | rdst | clrst | fbget | fbset | fbclr | fbload | refresh | txwrite | pwron | setpix | rect | line | image | window
deriving DecidableEq, Repr

/-- Why a packet is illegal (R58 (a) to (d)), plus the packet with no byte, which no host can present (R50; log entry 10). -/
inductive Illegal where
  /-- The packet has no byte at all. -/
  | noOpcode
  /-- R58 (a): more than 18 bytes. -/
  | overlong
  /-- R58 (b): byte 0 is not one of the 15 values of R55. -/
  | reservedOpcode
  /-- R58 (c): not the length R55 gives for the opcode. -/
  | wrongLength
  /-- R58 (d): a `state` operand that is neither `0x00` nor `0x01`. -/
  | badState
deriving DecidableEq, Repr

/-- The opcode map of R55: the value of byte 0. -/
def Op.byte : Op → Byte
  | .init => 0x01#8
  | .rdst => 0x02#8
  | .clrst => 0x03#8
  | .fbget => 0x10#8
  | .fbset => 0x11#8
  | .fbclr => 0x12#8
  | .fbload => 0x13#8
  | .refresh => 0x20#8
  | .txwrite => 0x21#8
  | .pwron => 0x22#8
  | .setpix => 0x30#8
  | .rect => 0x31#8
  | .line => 0x32#8
  | .image => 0x33#8
  | .window => 0x34#8

/-- The rows of R55 in their order. -/
def Op.all : List Op :=
  [.init, .rdst, .clrst, .fbget, .fbset, .fbclr, .fbload] ++ [.refresh, .txwrite, .pwron] ++
    [.setpix, .rect, .line, .image, .window]

/-- The row of R55 whose byte 0 is `b`; none for the 241 reserved values. -/
def Op.ofByte? (b : Byte) : Option Op := Op.all.find? fun op => op.byte == b

/-- The packet length R55 gives for the opcode; for TXWRITE, whose length is free from 2 to 18, the least (R50). -/
def Op.leastLength : Op → Nat
  | .init => 1
  | .rdst => 1
  | .clrst => 1
  | .fbget => 3
  | .fbset => 4
  | .fbclr => 1
  | .fbload => 17
  | .refresh => 1
  | .txwrite => 2
  | .pwron => 1
  | .setpix => 4
  | .rect => 6
  | .line => 5
  | .image => 17
  | .window => 17

/-- Format F0: no operand bytes (R51). -/
def decodeBare (i : Instr) : List Byte → Except Illegal Instr
  | [] => .ok i
  | _ :: _ => .error .wrongLength

/-- The `state` operand: only `0x00` and `0x01` are legal (R53). -/
def decodeState (b : Byte) : Except Illegal Bool :=
  if b = 0x00#8 then .ok false else if b = 0x01#8 then .ok true else .error .badState

/-- Format F3: `row`, `col`, `state` (R51). -/
def decodePixelWrite (make : Byte → Byte → Bool → Instr) : List Byte → Except Illegal Instr
  | [row, col, st] => (decodeState st).map (make row col)
  | _ => .error .wrongLength

/-- Format F16: the 16 bytes `p[0..15]`, no more and no fewer (R51, R54). -/
def decodePayload (make : Bytes16 → Instr) (args : List Byte) : Except Illegal Instr :=
  if h : args.length = 16 then .ok (make ⟨args.toArray, by simpa using h⟩) else .error .wrongLength

/-- The operand bytes of a packet whose opcode is known, by the format of its row (R51). -/
def decodeOperands (op : Op) (args : List Byte) : Except Illegal Instr :=
  match op with
  | .init => decodeBare .init args
  | .rdst => decodeBare .rdst args
  | .clrst => decodeBare .clrst args
  | .fbget =>
    match args with
    | [row, col] => .ok (.fbget row col)
    | _ => .error .wrongLength
  | .fbset => decodePixelWrite .fbset args
  | .fbclr => decodeBare .fbclr args
  | .fbload => decodePayload .fbload args
  | .refresh => decodeBare .refresh args
  | .txwrite =>
    match args with
    | addr :: d => if d.length ≤ 16 then .ok (.txwrite addr d) else .error .wrongLength
    | [] => .error .wrongLength
  | .pwron => decodeBare .pwron args
  | .setpix => decodePixelWrite .setpix args
  | .rect =>
    match args with
    | [x, y, w, h, st] => (decodeState st).map (.rect x y w h)
    | _ => .error .wrongLength
  | .line =>
    match args with
    | [r0, c0, r1, c1] => .ok (.line r0 c0 r1 c1)
    | _ => .error .wrongLength
  | .image => decodePayload .image args
  | .window => decodePayload .window args

/-- Stage 1 of R57, legality: the instruction a packet carries, or why it is illegal (R58). Total on any bytes. -/
def decode (packet : List Byte) : Except Illegal Instr :=
  if 18 < packet.length then .error .overlong
  else
    match packet with
    | [] => .error .noOpcode
    | b :: args =>
      match Op.ofByte? b with
      | none => .error .reservedOpcode
      | some op => decodeOperands op args

/-- The `state` operand's byte (R53). -/
def encodeState (s : Bool) : Byte := if s then 0x01#8 else 0x00#8

/-- The row of R55 an instruction belongs to. -/
def Instr.op : Instr → Op
  | .init => .init
  | .rdst => .rdst
  | .clrst => .clrst
  | .fbget _ _ => .fbget
  | .fbset _ _ _ => .fbset
  | .fbclr => .fbclr
  | .fbload _ => .fbload
  | .refresh => .refresh
  | .txwrite _ _ => .txwrite
  | .pwron => .pwron
  | .setpix _ _ _ => .setpix
  | .rect _ _ _ _ _ => .rect
  | .line _ _ _ _ => .line
  | .image _ => .image
  | .window _ => .window

/-- The operand bytes after byte 0, laid out by the formats of R51. -/
def Instr.operandBytes : Instr → List Byte
  | .init => []
  | .rdst => []
  | .clrst => []
  | .fbget row col => [row, col]
  | .fbset row col s => [row, col, encodeState s]
  | .fbclr => []
  | .fbload p => p.toList
  | .refresh => []
  | .txwrite addr d => addr :: d
  | .pwron => []
  | .setpix row col s => [row, col, encodeState s]
  | .rect x y w h s => [x, y, w, h, encodeState s]
  | .line r0 c0 r1 c1 => [r0, c0, r1, c1]
  | .image p => p.toList
  | .window p => p.toList

/-- The packet of an instruction: byte 0 from R55, then the bytes of R51 in order. -/
def encode (i : Instr) : List Byte := i.op.byte :: i.operandBytes

/-- Byte `k` of a number whose byte 0 holds bits 7..0 (the opcode table's numbering; the first byte sent is the lowest). -/
def byteOfNumber (w k : Nat) : Byte := BitVec.ofNat 8 (w / 2 ^ (8 * k))

/-- The packet whose bits are `w` as the opcode table numbers them. A row that gives its operands no bits stands for the
packet of its opcode's least length, the missing bytes zero (log entry 18). -/
def packetOfTableWord (nbits w : Nat) : List Byte :=
  let least := match Op.ofByte? (byteOfNumber w 0) with
    | some op => op.leastLength
    | none => 1
  (List.range (max (nbits / 8) least)).map (byteOfNumber (w % 2 ^ nbits))

/-- What the decoder reads from the packet whose bits are `w` as the opcode table numbers them. -/
def decodeTableWord (nbits w : Nat) : Option Instr :=
  match decode (packetOfTableWord nbits w) with
  | .ok i => some i
  | .error _ => none

end Sys2Proof
end

