-- ==== Sys2Proof/Config.lean ====
section
/-! DEFINITION. What an integrator fixes and what the spec leaves open. Every `opaque` constant is uninterpreted: no
statement can rest on a value of it. -/

namespace Sys2Proof

/-- `T_PHASE - 1`. The spec fixes only `T_PHASE >= 1` (R5, U7; log entry 14). -/
opaque Config.phaseHoldLessOne : Nat

/-- `T_PHASE`, the hold after each pin write in block clock ticks, at least 1 (R5, R90). No step of the machine reads it. -/
def Config.tPhase : Nat := Config.phaseHoldLessOne + 1

/-- The fixed overhead ticks of a command, which the spec does not set (R180, U14; log entry 14). -/
opaque Config.overheadTicks : Nat

/-- `GLYPH : character -> 5 bytes`, the host's font, a parameter: the source has no glyph data (R130, U6; log entry 15). -/
opaque Config.glyph : Char → Vector Byte 5

/-- FREE VALUE: a byte of the sink's display memory that nothing has written in this generation (R38, U5; log entry 4).
The arguments are the sink's generation and the address. -/
opaque Config.sinkFreeByte : Nat → Nat → Byte

/-- FREE VALUE: the sink's address pointer `AP` before it is first set in this generation (R38, U5; log entry 4). -/
opaque Config.sinkFreePointer : Nat → BitVec 4

/-- FREE VALUE: the sink's flag `AI` before it is first set in this generation (R38, U5; log entry 4). -/
opaque Config.sinkFreeAutoInc : Nat → Bool

/-- FREE VALUE: the sink's flag `ON` before it is first set in this generation (R38, U5; log entry 4). -/
opaque Config.sinkFreeDisplayOn : Nat → Bool

end Sys2Proof
end

