-- ==== Sys2Proof/Machine/State.lean ====
section
/-! DEFINITION. Everything the spec gives the block, and the two observers the spec gives its display link, as plain data
(10_state.md; 20_memory.md R36; 42_transport_ops.md R110), with the state after reset (70_reset_and_hazards.md R170). -/

namespace Sys2Proof.Machine

/-- The two output lines (R23). -/
inductive Line where
  | clk
  | dio
deriving DecidableEq, Repr

/-- One pin write: one level assigned to one line (R9, R90). -/
structure PinWrite where
  line : Line
  level : Level
deriving DecidableEq, Repr

/-- The levels of `CLK` and `DIO` (R23). -/
structure Lines where
  clk : Level
  dio : Level
deriving DecidableEq, Repr

/-- Both lines high: the idle level (R9, R23). -/
def Lines.high : Lines := { clk := true, dio := true }

/-- One thing the host does at the command port (R22, R181). -/
inductive HostMove where
  /-- A byte with `cmd_last = 0`. -/
  | byte (data : Byte)
  /-- A byte with `cmd_last = 1`; its command runs to completion. -/
  | lastByte (data : Byte)
  /-- A byte with `cmd_last = 1`, and `rst` asserted while its command still runs (`busy = 1`, R172). -/
  | lastByteThenReset (data : Byte)
  /-- `rst` asserted while `busy = 0` (R170, R181). -/
  | rst
  /-- Any time with no byte and no reset (R181). -/
  | wait
deriving DecidableEq, Repr

/-- The next thing the host's moves amount to, with the moves left after it. -/
inductive HostEvent where
  /-- A whole packet (R22). -/
  | packet (bytes : List Byte) (rest : List HostMove)
  /-- A whole packet whose command is cut short by `rst` (R172). -/
  | cut (rest : List HostMove)
  /-- `rst` while no command runs (R170). -/
  | reset (rest : List HostMove)
  /-- The moves end with this much of a packet received. -/
  | quiet (received : List Byte)
deriving DecidableEq, Repr

/-- Where the reference receiver stands (R110): `inframe = 0`; or `inframe = 1` with `sh`, the bits of the byte in progress,
and `cur`, the bytes of the frame in progress; or not known, after a reset while busy (R172; log entry 8). -/
inductive RxPhase where
  | outside
  | inFrame (sh : List Bool) (cur : List Byte)
  | unknown
deriving DecidableEq, Repr

/-- The reference receiver (R110). -/
structure Receiver where
  /-- `clk`, `dio`: the levels it last saw. -/
  lines : Lines
  /-- `inframe`, `sh`, `cur`. -/
  phase : RxPhase
  /-- The completed frames, oldest first. -/
  frames : List (List Byte)
deriving DecidableEq, Repr

/-- What the receiver tells the sink at one pin write. -/
inductive LinkEvent where
  /-- No frame ends here. -/
  | nothing
  /-- A frame with these bytes ends here (R111, stop). -/
  | frame (bytes : List Byte)
  /-- A stop seen while the receiver's position is unknown (log entry 8). -/
  | lost
deriving DecidableEq, Repr

/-- Addressed bytes, addresses strictly rising: the sink's display memory (R36). A cell that nothing has written is not
listed and has no value here (R38; log entry 5). -/
abbrev Memory := List Host.Cell

/-- A register of the sink: still at its unspecified value (R38, U5: a free value of Config, log entry 4), or set. -/
inductive SinkReg (α : Type) where
  | free
  | held (v : α)
deriving DecidableEq, Repr

/-- The reference sink (R36). -/
structure Sink where
  /-- `DM`, the display memory. -/
  dm : Memory
  /-- `AP`, the address pointer. -/
  ap : SinkReg (BitVec 4)
  /-- `AI`, auto-increment addressing selected. -/
  ai : SinkReg Bool
  /-- `ON`, display on. -/
  dispOn : SinkReg Bool
  /-- The sink met a frame whose effect no source gives and stopped, its state undetermined (R37, last arm; U4). -/
  stopped : Bool
  /-- Which family of free values its unspecified state takes (the model's own counter; log entry 4). -/
  generation : Nat
deriving DecidableEq, Repr

/-- The far end of the link: the reference receiver and the reference sink. The block never reads it (R21, R36). -/
structure FarEnd where
  rx : Receiver
  sink : Sink
deriving DecidableEq, Repr

/-- The whole state between two commands. -/
structure State where
  /-- `FB[0..15]`, byte = hardware column, bit = row (R10, R11). -/
  fb : Bytes16
  /-- The levels of `CLK` and `DIO` (R23). -/
  lines : Lines
  /-- `STATUS`: bit 0 `INITD`, 1 `WARN`, 2 `ILL`, 3 `NOINIT`, 7:4 reserved (R14). -/
  status : Byte
  /-- `rsp`, the response byte of the current command (R7, R56). -/
  rsp : Byte
  /-- `TR`, the wire trace (R19). -/
  tr : List PinWrite
  /-- `RS`, the response stream (R20). -/
  rs : List Byte
  /-- The bytes of the packet being received (R22, R170). -/
  packet : List Byte
  /-- The host's moves still to come (R181; log entry 2). -/
  input : List HostMove
  /-- The display controller as the spec's observers see it (R21, R36, R110). -/
  far : FarEnd
deriving DecidableEq, Repr

/-- The block has no trap, exception or machine check (R150): no step stops with a fault. -/
inductive Fault where
deriving DecidableEq, Repr

/-- Why a step has no meaning. -/
inductive Refusal where
  /-- Raised by an arm of `exec` for an instruction that has no meaning yet; safe. No arm raises it. -/
  | notModelled (mnemonic : String)
deriving DecidableEq, Repr

/-- What a step answers. -/
abbrev Answer := Host.Outcome State Fault Refusal

/-- The sink before it has met a frame: every part unspecified (R38). -/
def Sink.unspecified : Sink :=
  { dm := [], ap := .free, ai := .free, dispOn := .free, stopped := false, generation := 0 }

/-- The receiver's initial state (R110). -/
def Receiver.initial : Receiver := { lines := Lines.high, phase := .outside, frames := [] }

/-- The state right after reset (R170; 10_state.md section 7). -/
def State.reset : State :=
  { fb := Vector.replicate 16 0x00#8
    lines := Lines.high
    status := 0x00#8
    rsp := 0x00#8
    tr := []
    rs := []
    packet := []
    input := []
    far := { rx := Receiver.initial, sink := Sink.unspecified } }

end Sys2Proof.Machine
end

