-- ==== Sys2Proof/Machine/Operands.lean ====
section
/-! DEFINITION. Reading operands: signed bytes, coordinate ranges, bits of bytes and of image payloads
(30_encoding.md R52 to R54; 40_framebuffer_ops.md R74, R75; 41_raster_ops.md R82, R84, R86). -/

namespace Sys2Proof.Machine

/-- `int8(b)`: `b` if `b < 128`, else `b - 256` (R6, R52). -/
def int8 (b : Byte) : Int := if b.toNat < 128 then b.toNat else (b.toNat : Int) - 256

/-- `in_range(row, col)` (R75). -/
def inRange (row col : Int) : Bool := decide (0 ≤ row ∧ row ≤ 7 ∧ 0 ≤ col ∧ col ≤ 15)

/-- `for i in a..b`: `a, a+1, ..., b`, no value when `a > b` (R6). -/
def intRange (a b : Int) : List Int := (List.range (b + 1 - a).toNat).map fun k => a + (k : Nat)

/-- Byte `k` of sixteen, `0 <= k <= 15`. -/
def byteAt (v : Bytes16) (k : Nat) : Byte := v.getD k 0x00#8

/-- Byte `b` with bit `i` set to `v`, other bits unchanged (R7). -/
def setBit (b : Byte) (i : Nat) (v : Bool) : Byte := if v then b ||| 1#8 <<< i else b &&& ~~~(1#8 <<< i)

/-- The byte whose bit `r` is `f r`, row 0 the least significant (R11, R32). -/
def byteOfRows (f : Nat → Bool) : Byte := BitVec.ofFnLE fun i : Fin 8 => f i

/-- `m[r][c]` of an image payload: `p[2*r + (c div 8)][c mod 8]` (R74). -/
def imageBit (p : Bytes16) (r c : Nat) : Bool := (byteAt p (2 * r + c / 8)).getLsbD (c % 8)

/-- `pack` of R74: the payload whose `m[r][c]` is the given matrix. -/
def packImage (m : Nat → Nat → Bool) : Bytes16 :=
  Vector.ofFn fun k : Fin 16 => byteOfRows fun i => m (k / 2) (8 * (k % 2) + i)

/-- The frame-buffer bytes of an image payload: bit `r` of byte `c` is `m[r][c]` (R73). -/
def unpackImage (p : Bytes16) : Bytes16 := Vector.ofFn fun c : Fin 16 => byteOfRows fun r => imageBit p r c

/-- The pixels of RECT, `(row, col)`, column by column: the two intervals clipped to the matrix (R82). -/
def rectPixels (x y w h : Int) : List (Int × Int) :=
  (intRange (max x 0) (min (x + w) 16 - 1)).flatMap fun c =>
    (intRange (max y 0) (min (y + h) 8 - 1)).map fun r => (r, c)

/-- The pixels of a horizontal LINE: the swept column clipped, the row not (R84). -/
def rowSweep (r c0 c1 : Int) : List (Int × Int) := (intRange (max (min c0 c1) 0) (min (max c0 c1) 15)).map fun c => (r, c)

/-- The pixels of a vertical LINE: the swept row clipped, the column not (R84). -/
def colSweep (c r0 r1 : Int) : List (Int × Int) := (intRange (max (min r0 r1) 0) (min (max r0 r1) 7)).map fun r => (r, c)

end Sys2Proof.Machine
end

