-- ==== Sys2Proof/Machine/Flags.lean ====
section
/-! DEFINITION. The status register and the flag bits of the response byte (10_state.md R14, R15; 30_encoding.md R56;
60_exceptions.md R151). There are no arithmetic flags (R16). -/

namespace Sys2Proof.Machine

/-- `STATUS` bit 0, `INITD` (R14). -/
def maskInitd : Byte := 0x01#8
/-- Bit 1 of `STATUS` and of the response byte, `WARN` (R14, R56). -/
def maskWarn : Byte := 0x02#8
/-- Bit 2, `ILL`. -/
def maskIll : Byte := 0x04#8
/-- Bit 3, `NOINIT`. -/
def maskNoInit : Byte := 0x08#8
/-- The three sticky flags that CLRST clears (R14, R123). -/
def maskSticky : Byte := 0x0E#8
/-- The bits of `STATUS` that exist; bits 7:4 are reserved and read as 0 (R14, U11). -/
def maskDefined : Byte := 0x0F#8

/-- `INITD`, `STATUS[0]` (R15). -/
def State.initd (s : State) : Bool := s.status.getLsbD 0
/-- The sticky flag `WARN`, `STATUS[1]`. -/
def State.warnFlag (s : State) : Bool := s.status.getLsbD 1
/-- The sticky flag `ILL`, `STATUS[2]`. -/
def State.illFlag (s : State) : Bool := s.status.getLsbD 2
/-- The sticky flag `NOINIT`, `STATUS[3]`. -/
def State.noInitFlag (s : State) : Bool := s.status.getLsbD 3

/-- `STATUS.f <- 1` for the flag of a mask (R7). -/
def State.raiseFlag (mask : Byte) (s : State) : State := { s with status := s.status ||| mask }

/-- `WARN`, `ILL` and `NOINIT` to 0, `INITD` unchanged (R123). -/
def State.clearSticky (s : State) : State := { s with status := s.status &&& ~~~maskSticky }

/-- `STATUS` as RDST reads it: the reserved bits read as 0 (R14, R122). -/
def State.readStatus (s : State) : Byte := s.status &&& maskDefined

/-- `rsp <- b` (R7). -/
def State.setRsp (b : Byte) (s : State) : State := { s with rsp := b }

/-- `warn()`: `STATUS.WARN <- 1` and bit 1 of the response byte (R7, R151). -/
def State.warn (s : State) : State := (s.raiseFlag maskWarn).setRsp (s.rsp ||| maskWarn)

end Sys2Proof.Machine
end

