-- ==== Sys2Proof/Machine/Wire.lean ====
section
/-! DEFINITION. The wire protocol as lists of pin writes (42_transport_ops.md R90 to R96, R101), and what a list of pin
writes does to the lines (10_state.md R19, R23). -/

namespace Sys2Proof.Machine

/-- The lines after one pin write (R23, R90). -/
def Lines.write (l : Lines) (w : PinWrite) : Lines :=
  match w.line with
  | .clk => { l with clk := w.level }
  | .dio => { l with dio := w.level }

/-- The lines after a list of pin writes: each holds the level of the last write to it (R23). -/
def Lines.writeAll (l : Lines) (ws : List PinWrite) : Lines := ws.foldl Lines.write l

/-- The level of one line. -/
def Lines.level (l : Lines) : Line → Level
  | .clk => l.clk
  | .dio => l.dio

/-- A pin write that changes its line's level is a transition (R9, R19). -/
def Lines.changes (l : Lines) (w : PinWrite) : Bool := l.level w.line != w.level

/-- The number of transitions on one line, from the levels before the list (R19). -/
def transitionsOn (line : Line) : Lines → List PinWrite → Nat
  | _, [] => 0
  | l, w :: ws => (if w.line = line && l.changes w then 1 else 0) + transitionsOn line (l.write w) ws

/-- The number of transitions of a list of pin writes (R19). -/
def transitions (l : Lines) (ws : List PinWrite) : Nat := transitionsOn .clk l ws + transitionsOn .dio l ws

/-- `C0`, `C1`: the clock line driven to a level. -/
def clockTo (v : Level) : PinWrite := { line := .clk, level := v }

/-- `D0`, `D1`: the data line driven to a level. -/
def dataTo (v : Level) : PinWrite := { line := .dio, level := v }

/-- `START = [C0, C1, D1, D0]` (R91). -/
def startWrites : List PinWrite := [clockTo false, clockTo true, dataTo true, dataTo false]

/-- `END = [C0, D0, C1, D1]` (R92). -/
def endWrites : List PinWrite := [clockTo false, dataTo false, clockTo true, dataTo true]

/-- `BIT(b) = [C0, D<b>, C1]` (R93). -/
def bitWrites (b : Bool) : List PinWrite := [clockTo false, dataTo b, clockTo true]

/-- The bits of a byte in wire order, bit 7 first (R33, R94). -/
def wireBits (v : Byte) : List Bool :=
  [v.getLsbD 7, v.getLsbD 6, v.getLsbD 5, v.getLsbD 4, v.getLsbD 3, v.getLsbD 2, v.getLsbD 1, v.getLsbD 0]

/-- `BYTE(v)`, most significant bit first (R94). -/
def byteWrites (v : Byte) : List PinWrite := (wireBits v).flatMap bitWrites

/-- `FRAME(bs)` (R95). -/
def frameWrites (bs : List Byte) : List PinWrite := startWrites ++ bs.flatMap byteWrites ++ endWrites

/-- The protocol opcode `0x40`, auto-increment addressing (R33). -/
def opAutoIncrement : Byte := 0x40#8
/-- The protocol opcode `0xC0`, start address 0 (R33). -/
def opStartAddress : Byte := 0xC0#8
/-- The protocol opcode `0x88`, display on, default brightness (R33). -/
def opDisplayOn : Byte := 0x88#8

/-- The three frames of `write3(addr, data)`. `0xC0 + addr` for `addr > 0` is the spec's general knowledge (R101, U3;
log entry 12). -/
def write3Frames (addr : Byte) (data : List Byte) : List (List Byte) :=
  [[opAutoIncrement], (opStartAddress + addr) :: data, [opDisplayOn]]

/-- The four frames of power-on: the display-control opcode, then sixteen zero bytes by the three-frame write (R104). -/
def powerOnFrames : List (List Byte) := [opDisplayOn] :: write3Frames 0x00#8 (List.replicate 16 0x00#8)

/-- The pin writes of whole frames, one after the other (R95, R105). -/
def framesWrites (fs : List (List Byte)) : List PinWrite := fs.flatMap frameWrites

/-- `write3(addr, data)` (R101). -/
def write3 (addr : Byte) (data : List Byte) : List PinWrite := framesWrites (write3Frames addr data)

end Sys2Proof.Machine
end

