-- ==== Sys2Proof/Machine/FarEnd.lean ====
section
/-! DEFINITION. The display controller as the spec's observers see it: the reference receiver (42_transport_ops.md R110,
R111, R113) and the reference sink (20_memory.md R36 to R38). The block never reads either. -/

namespace Sys2Proof.Machine

/-- The canonical form of the display memory: addresses strictly rising and inside `0..15` (R31, R36). -/
abbrev Memory.wf (m : Memory) : Prop := m.Pairwise (fun x y => x.1 < y.1) ∧ ∀ c ∈ m, c.1 < 16

/-- The byte listed at an address, if any. -/
def Memory.read : Memory → Nat → Option Byte
  | [], _ => none
  | (k, b) :: m, a => if k = a then some b else Memory.read m a

/-- Store one byte, keeping the addresses strictly rising. -/
def Memory.write : Memory → Nat → Byte → Memory
  | [], a, v => [(a, v)]
  | (k, b) :: m, a, v =>
    if a < k then (a, v) :: (k, b) :: m
    else if a = k then (a, v) :: m
    else (k, b) :: Memory.write m a v

/-- `DM[a]` as the display shows it: the stored byte, else the free value of this generation (R38, U5; log entry 4). -/
def Sink.shown (k : Sink) (a : Nat) : Byte := (Memory.read k.dm a).getD (Config.sinkFreeByte k.generation a)

/-- `AP` (R36). -/
def Sink.pointer (k : Sink) : BitVec 4 :=
  match k.ap with
  | .held v => v
  | .free => Config.sinkFreePointer k.generation

/-- `AI` (R36). -/
def Sink.autoInc (k : Sink) : Bool :=
  match k.ai with
  | .held v => v
  | .free => Config.sinkFreeAutoInc k.generation

/-- `ON` (R36). -/
def Sink.displayOn (k : Sink) : Bool :=
  match k.dispOn with
  | .held v => v
  | .free => Config.sinkFreeDisplayOn k.generation

/-- Nothing is known of the sink any more: every part unspecified anew, with fresh free values (R38, R172, U5). -/
def Sink.forget (k : Sink) : Sink :=
  { dm := [], ap := .free, ai := .free, dispOn := .free, stopped := k.stopped, generation := k.generation + 1 }

/-- The sink met a frame whose effect no source gives: it stops, its state undetermined (R37, last arm; U4). -/
def Sink.stop (k : Sink) : Sink := { k.forget with stopped := true }

/-- `DM[AP] <- b ; AP <- (AP + 1) mod 16` (R37). -/
def Sink.store (k : Sink) (b : Byte) : Sink :=
  { k with dm := Memory.write k.dm k.pointer.toNat b, ap := .held (k.pointer + 1) }

/-- The reference sink step on one frame `b0, b1, ..., bk` (R37). -/
def Sink.takeFrame (k : Sink) (bs : List Byte) : Sink :=
  if k.stopped then k
  else
    match bs with
    | [] => k.stop
    | b0 :: data =>
      if b0 = opAutoIncrement ∧ data = [] then { k with ai := .held true }
      else if b0 = opDisplayOn ∧ data = [] then { k with dispOn := .held true }
      else if 0xC0 ≤ b0.toNat ∧ b0.toNat ≤ 0xCF ∧ k.autoInc = true ∧ b0.toNat - 0xC0 + data.length ≤ 16 then
        data.foldl Sink.store { k with ap := .held (BitVec.ofNat 4 (b0.toNat - 0xC0)) }
      else k.stop

/-- What the sink does at one event of the link. -/
def Sink.onEvent (k : Sink) : LinkEvent → Sink
  | .nothing => k
  | .frame bs => k.takeFrame bs
  | .lost => k.stop

/-- The byte whose bits arrived in this order, the first as bit 7 of eight (R111). -/
def byteOfWireBits (sh : List Bool) : Byte := sh.foldl (fun acc b => acc <<< 1 ||| (if b then 0x01#8 else 0x00#8)) 0x00#8

/-- A rising clock edge samples the data line inside a frame; the eighth bit completes a byte (R111). -/
def RxPhase.sample (p : RxPhase) (dio : Level) : RxPhase :=
  match p with
  | .inFrame sh cur =>
    if sh.length = 7 then .inFrame [] (cur ++ [byteOfWireBits (sh ++ [dio])]) else .inFrame (sh ++ [dio]) cur
  | .outside => .outside
  | .unknown => .unknown

/-- The data line falls while the clock is high: start (R91, R111). -/
def Lines.starts (l : Lines) (w : PinWrite) : Bool := decide (w.line = .dio) && l.clk && l.dio && !w.level

/-- The data line rises while the clock is high: stop (R92, R111). -/
def Lines.stops (l : Lines) (w : PinWrite) : Bool := decide (w.line = .dio) && l.clk && !l.dio && w.level

/-- The clock line rises (R111). -/
def Lines.rises (l : Lines) (w : PinWrite) : Bool := decide (w.line = .clk) && !l.clk && w.level

/-- What ends at this pin write (R111, the stop arm). -/
def Receiver.event (r : Receiver) (w : PinWrite) : LinkEvent :=
  if r.lines.stops w then
    match r.phase with
    | .inFrame _ cur => .frame cur
    | .outside => .nothing
    | .unknown => .lost
  else .nothing

/-- The phase after a pin write (R111). An incomplete byte is dropped at a stop (R113). -/
def Receiver.nextPhase (r : Receiver) (w : PinWrite) : RxPhase :=
  if r.lines.starts w then .inFrame [] []
  else if r.lines.stops w then .outside
  else if r.lines.rises w then r.phase.sample r.lines.dio
  else r.phase

/-- The completed frames an event adds. -/
def LinkEvent.completed : LinkEvent → List (List Byte)
  | .nothing => []
  | .frame bs => [bs]
  | .lost => []

/-- The receiver step, applied to each pin write in order (R111). -/
def Receiver.step (r : Receiver) (w : PinWrite) : Receiver :=
  { lines := r.lines.write w, phase := r.nextPhase w, frames := r.frames ++ (r.event w).completed }

/-- One pin write arrives: the receiver steps, and a frame that ends is given to the sink (R37, R111). -/
def FarEnd.step (f : FarEnd) (w : PinWrite) : FarEnd :=
  { rx := f.rx.step w, sink := f.sink.onEvent (f.rx.event w) }

/-- A list of pin writes arrives, in order. -/
def FarEnd.steps (f : FarEnd) (ws : List PinWrite) : FarEnd := ws.foldl FarEnd.step f

/-- The block was reset while idle: `TR` restarts, so the frames seen restart; the sink keeps what it has (R170, R181;
log entry 9). -/
def FarEnd.afterIdleReset (f : FarEnd) : FarEnd :=
  { f with rx := { lines := Lines.high, phase := f.rx.phase, frames := [] } }

/-- The block was reset while busy: both lines went high at once, in an order the receiver cannot tell, so neither its
position nor the sink's state is known (R172, U5; log entry 3). -/
def FarEnd.afterBusyReset (f : FarEnd) : FarEnd :=
  { rx := { lines := Lines.high, phase := .unknown, frames := [] }, sink := f.sink.forget }

end Sys2Proof.Machine
end

