-- ==== Sys2Proof/Machine/Ops.lean ====
section
/-! DEFINITION. The operations the commands share: frame buffer accesses, emitting pin writes, completing a command,
containing an error, reset, and taking the host's next packet. The block has no exception to take or return from (R150):
its errors are contained here (R57, R151 to R153). -/

namespace Sys2Proof.Machine

/-- `FB[c]`, `0 <= c <= 15` (R7, R10). -/
def State.column (s : State) (c : Nat) : Byte := byteAt s.fb c

/-- `FB[c][r]`, pixel `(row, col) = (r, c)` (R11). -/
def State.pixel (s : State) (r c : Nat) : Bool := (s.column c).getLsbD r

/-- `FB[c][r] <- v`, other bits unchanged (R7, R11). -/
def State.writePixel (s : State) (r c : Nat) (v : Bool) : State :=
  { s with fb := s.fb.setIfInBounds c (setBit (s.column c) r v) }

/-- `fb_set(row, col, s)`: one pixel, or a warning outside the matrix (R75). -/
def fbSet (row col : Int) (v : Bool) (s : State) : State :=
  if inRange row col then s.writePixel row.toNat col.toNat v else s.warn

/-- `fb_set` at each pixel of a list in order (R82, R84). -/
def plot (pixels : List (Int × Int)) (v : Bool) (s : State) : State :=
  pixels.foldl (fun t p => fbSet p.1 p.2 v t) s

/-- `FB[c] <- v[c]` for every column. -/
def State.setFb (v : Bytes16) (s : State) : State := { s with fb := v }

/-- `FB[c] <- 0x00` for every column (R72, R120). -/
def State.clearFb (s : State) : State := s.setFb (Vector.replicate 16 0x00#8)

/-- `emit(events)`: the pin writes in order, on the lines, in `TR`, and at the far end of the intact link
(R7, R90, R174). -/
def emit (ws : List PinWrite) (s : State) : State :=
  { s with lines := s.lines.writeAll ws, tr := s.tr ++ ws, far := s.far.steps ws }

/-- `refresh()`: the three-frame write of the sixteen bytes `FB` holds now (R40, R100). -/
def refresh (s : State) : State := emit (write3 0x00#8 s.fb.toList) s

/-- `powerOn()`: four frames (R104). -/
def powerOn (s : State) : State := emit (framesWrites powerOnFrames) s

/-- The command completes: its response byte is appended to `RS` (R56). -/
def respond (s : State) : State := { s with rs := s.rs ++ [s.rsp] }

/-- Containment of an illegal packet: `STATUS.ILL <- 1 ; rsp <- 0x04 ; done` (R57, R152). -/
def containIllegal (s : State) : State := respond ((s.raiseFlag maskIll).setRsp maskIll)

/-- Containment of a command before INIT: `STATUS.NOINIT <- 1 ; rsp <- 0x08 ; done` (R57, R153). -/
def containNoInit (s : State) : State := respond ((s.raiseFlag maskNoInit).setRsp maskNoInit)

/-- A command that is accepted whatever `INITD` is: its rule, then its response (R57). -/
def ungated (body : State → State) (s : State) : Answer := .next (respond (body s))

/-- A command behind the init gate: its rule only when `INITD = 1` (R15, R57, R153). -/
def gated (body : State → State) (s : State) : Answer :=
  if s.initd then .next (respond (body s)) else .next (containNoInit s)

/-- Reset on a tick with no command running (R170): every part of the block at its reset value; the host's later moves
stay, and the far end keeps what the earlier frames left (R38, R181). -/
def idleReset (s : State) : State := { State.reset with input := s.input, far := s.far.afterIdleReset }

/-- Reset while a command runs (R170, R172): the block as after any reset, the far end unknown. -/
def busyReset (s : State) : State := { State.reset with input := s.input, far := s.far.afterBusyReset }

/-- The next thing the host's moves amount to, after the bytes already received (R22). -/
def nextEvent (received : List Byte) : List HostMove → HostEvent
  | [] => .quiet received
  | .byte b :: ms => nextEvent (received ++ [b]) ms
  | .lastByte b :: ms => .packet (received ++ [b]) ms
  | .lastByteThenReset _ :: ms => .cut ms
  | .rst :: ms => .reset ms
  | .wait :: ms => nextEvent received ms

/-- The host's moves that present one packet (R22). -/
def movesOfPacket : List Byte → List HostMove
  | [] => []
  | [b] => [.lastByte b]
  | b :: c :: bs => .byte b :: movesOfPacket (c :: bs)

/-- `cp`, the index of the next packet since reset: one response byte per accepted packet (R17, R20; log entry 20). -/
def State.cp (s : State) : Nat := s.rs.length

end Sys2Proof.Machine
end

