-- ==== Sys2Proof/Machine/FrameBuffer.lean ====
section
/-! DEFINITION. The frame-buffer commands (40_framebuffer_ops.md R70 to R73). None refreshes. -/

namespace Sys2Proof.Machine

/-- The rule of FBGET on integers: the pixel, or a warning and `VAL = 0` outside the matrix (R70). -/
def readPixel (row col : Int) (s : State) : State :=
  if inRange row col then s.setRsp (if s.pixel row.toNat col.toNat then 0x01#8 else 0x00#8) else s.warn.setRsp maskWarn

/-- FBGET (R70). -/
def execFbget (row col : Byte) (s : State) : Answer := gated (readPixel (int8 row) (int8 col)) s

/-- FBSET (R71). -/
def execFbset (row col : Byte) (v : Bool) (s : State) : Answer :=
  gated (fun s => fbSet (int8 row) (int8 col) v (s.setRsp 0x00#8)) s

/-- FBCLR (R72). -/
def execFbclr (s : State) : Answer := gated (fun s => s.clearFb.setRsp 0x00#8) s

/-- FBLOAD (R73). -/
def execFbload (p : Bytes16) (s : State) : Answer := gated (fun s => (s.setFb (unpackImage p)).setRsp 0x00#8) s

end Sys2Proof.Machine
end

