-- ==== Sys2Proof/Machine/Raster.lean ====
section
/-! DEFINITION. The rasterising commands (41_raster_ops.md R80 to R89). -/

namespace Sys2Proof.Machine

/-- SETPIX (R80): `fb_set`, then one refresh in every case. -/
def execSetpix (row col : Byte) (v : Bool) (s : State) : Answer :=
  gated (fun s => refresh (fbSet (int8 row) (int8 col) v (s.setRsp 0x00#8))) s

/-- RECT (R82): the clipped rectangle, then one refresh, even of an empty rectangle. The clipped pixels are all inside the
matrix, so no `fb_set` of it warns. -/
def execRect (x y w h : Byte) (v : Bool) (s : State) : Answer :=
  gated (fun s => (refresh (plot (rectPixels (int8 x) (int8 y) (int8 w) (int8 h)) v s)).setRsp 0x00#8) s

/-- The rule of LINE on integers (R84): a row sweep, else a column sweep, else nothing at all. -/
def drawLine (r0 c0 r1 c1 : Int) (s : State) : State :=
  if r0 = r1 then refresh (plot (rowSweep r0 c0 c1) true s)
  else if c0 = c1 then refresh (plot (colSweep c0 r0 r1) true s)
  else s

/-- LINE (R84). -/
def execLine (r0 c0 r1 c1 : Byte) (s : State) : Answer :=
  gated (fun s => drawLine (int8 r0) (int8 c0) (int8 r1) (int8 c1) (s.setRsp 0x00#8)) s

/-- IMAGE (R87): as FBLOAD, then one refresh. -/
def execImage (p : Bytes16) (s : State) : Answer := gated (fun s => (refresh (s.setFb (unpackImage p))).setRsp 0x00#8) s

/-- WINDOW (R88): sixteen column bytes, then one refresh. -/
def execWindow (p : Bytes16) (s : State) : Answer := gated (fun s => (refresh (s.setFb p)).setRsp 0x00#8) s

end Sys2Proof.Machine
end

