-- ==== Sys2Proof/Machine/System.lean ====
section
/-! DEFINITION. The system commands (43_system_ops.md R120 to R123). -/

namespace Sys2Proof.Machine

/-- INIT (R120): both lines high, frame buffer zero, power on, `INITD`. The sticky flags stay. -/
def execInit (s : State) : Answer :=
  ungated (fun s => ((powerOn (emit [clockTo true, dataTo true] s).clearFb).raiseFlag maskInitd).setRsp 0x00#8) s

/-- RDST (R122): the status register; reading does not clear. -/
def execRdst (s : State) : Answer := ungated (fun s => s.setRsp s.readStatus) s

/-- CLRST (R123): the three sticky flags to 0. -/
def execClrst (s : State) : Answer := ungated (fun s => s.clearSticky.setRsp 0x00#8) s

end Sys2Proof.Machine
end

