-- ==== Sys2Proof/Machine/Transport.lean ====
section
/-! DEFINITION. The transport commands (42_transport_ops.md R100 to R104). -/

namespace Sys2Proof.Machine

/-- REFRESH (R100). -/
def execRefresh (s : State) : Answer := gated (fun s => (refresh s).setRsp 0x00#8) s

/-- A low-level write that is not transmitted: `addr > 15`, no payload, or a payload that runs past address 15
(R102, R103). -/
def malformedWrite (addr : Byte) (d : List Byte) : Bool :=
  decide (15 < addr.toNat ∨ d.length = 0 ∨ 16 < addr.toNat + d.length)

/-- TXWRITE (R102): a malformed write emits nothing and says nothing (R103). -/
def execTxwrite (addr : Byte) (d : List Byte) (s : State) : Answer :=
  gated (fun s => if malformedWrite addr d then s.setRsp 0x00#8 else emit (write3 addr d) (s.setRsp 0x00#8)) s

/-- PWRON (R104). -/
def execPwron (s : State) : Answer := gated (fun s => (powerOn s).setRsp 0x00#8) s

end Sys2Proof.Machine
end

