-- ==== Sys2Proof/Machine/Dispatch.lean ====
section
/-! DEFINITION. One arm per command (30_encoding.md R55). -/

namespace Sys2Proof.Machine

/-- What a legal packet's instruction does, the init gate included (R57, stages 2 and 3). -/
def exec (i : Instr) (s : State) : Host.Outcome State Fault Refusal :=
  match i with
  | .init => Sys2Proof.Machine.execInit s
  | .rdst => Sys2Proof.Machine.execRdst s
  | .clrst => Sys2Proof.Machine.execClrst s
  | .fbget row col => Sys2Proof.Machine.execFbget row col s
  | .fbset row col state => Sys2Proof.Machine.execFbset row col state s
  | .fbclr => Sys2Proof.Machine.execFbclr s
  | .fbload p => Sys2Proof.Machine.execFbload p s
  | .refresh => Sys2Proof.Machine.execRefresh s
  | .txwrite addr d => Sys2Proof.Machine.execTxwrite addr d s
  | .pwron => Sys2Proof.Machine.execPwron s
  | .setpix row col state => Sys2Proof.Machine.execSetpix row col state s
  | .rect x y w h state => Sys2Proof.Machine.execRect x y w h state s
  | .line r0 c0 r1 c1 => Sys2Proof.Machine.execLine r0 c0 r1 c1 s
  | .image p => Sys2Proof.Machine.execImage p s
  | .window p => Sys2Proof.Machine.execWindow p s

end Sys2Proof.Machine
end

