-- ==== Sys2Proof/Machine/Step.lean ====
section
/-! DEFINITION. One step: the host's next packet, reset, or silence (30_encoding.md R57; 70_reset_and_hazards.md R181). -/

namespace Sys2Proof.Machine

/-- One whole packet: legality first, then the instruction (R57). -/
def runPacket (packet : List Byte) (s : State) : Host.Outcome State Fault Refusal :=
  match decode packet with
  | .ok i => exec i s
  | .error _ => .next (containIllegal s)

/-- The block takes the host's next packet or reset. With none left it stays idle, the bytes so far received. -/
def step (s : State) : Host.Outcome State Fault Refusal :=
  match nextEvent s.packet s.input with
  | .packet bytes rest => runPacket bytes { s with packet := [], input := rest }
  | .cut rest => .next (busyReset { s with input := rest })
  | .reset rest => .next (idleReset { s with input := rest })
  | .quiet received => .next { s with packet := received, input := [] }

/-- `s` with the packet of a table word presented next at the command port, before the moves already pending (log entry
2). -/
def State.withFetchWord (s : State) (nbits w : Nat) : State :=
  { s with packet := [], input := movesOfPacket (packetOfTableWord nbits w) ++ s.input }

end Sys2Proof.Machine
end

