-- ==== Sys2Proof/Machine/HostSide.lean ====
section
/-! DEFINITION. What runs on the host, outside the block: the public operations as packets (30_encoding.md R61, R62), and
the text and scroll routines (45_host_sequences.md R130 to R142). No step of the machine calls this file. -/

namespace Sys2Proof.Machine

/-- A signed operand as its byte, `v mod 256`; a value outside -128 to 127 cannot be encoded (R52, R61, R62). -/
def signedOperand (v : Int) : Option Byte := if -128 ≤ v ∧ v ≤ 127 then some (BitVec.ofInt 8 v) else none

/-- The public operations that expand to exactly one packet (R62). `scrollText` is `scrollText` below. -/
inductive HostCall where
  | initializeBlock
  | setPixel (row col : Int) (state : Bool)
  | clear
  | refresh
  | drawRectangle (x y width height : Int) (state : Bool)
  | drawLine (startRow startCol endRow endCol : Int)
  | drawImage (matrix : Vector (Vector Bool 16) 8)
deriving DecidableEq, Repr

/-- Element `(r, c)` of an image matrix. -/
def matrixBit (m : Vector (Vector Bool 16) 8) (r c : Nat) : Bool := (m.getD r (Vector.replicate 16 false)).getD c false

/-- The packet an operation stands for (R62); none when an operand cannot be encoded. -/
def HostCall.expand : HostCall → Option Instr
  | .initializeBlock => some .init
  | .setPixel row col v => do return .setpix (← signedOperand row) (← signedOperand col) v
  | .clear => some .fbclr
  | .refresh => some .refresh
  | .drawRectangle x y w h v =>
    do return .rect (← signedOperand x) (← signedOperand y) (← signedOperand w) (← signedOperand h) v
  | .drawLine r0 c0 r1 c1 =>
    do return .line (← signedOperand r0) (← signedOperand c0) (← signedOperand r1) (← signedOperand c1)
  | .drawImage m => some (.image (packImage (matrixBit m)))

/-- The 27 characters that have a glyph: `A` to `Z` and space (R130). -/
def hasGlyph (c : Char) : Bool := decide ('A' ≤ c ∧ c ≤ 'Z') || c == ' '

/-- Case-normalizing lookup; a character without a glyph takes the space glyph (R131). -/
def lookupGlyph (c : Char) : Vector Byte 5 :=
  if hasGlyph c.toUpper then Config.glyph c.toUpper else Config.glyph ' '

/-- The columns of the text itself: each glyph's 5 columns and one blank column between two characters (R132). -/
def textColumns : List Char → List Byte
  | [] => []
  | [c] => (lookupGlyph c).toList
  | c :: d :: cs => (lookupGlyph c).toList ++ 0x00#8 :: textColumns (d :: cs)

/-- `render(text)`, the composite bitmap: 16 blank columns, the text, 16 blank columns (R132). -/
def render (text : List Char) : List Byte := List.replicate 16 0x00#8 ++ textColumns text ++ List.replicate 16 0x00#8

/-- The window of a bitmap at `startCol` (R139). -/
def windowAt (bitmap : List Byte) (startCol : Int) : Bytes16 :=
  Vector.ofFn fun c : Fin 16 =>
    if 0 ≤ startCol + (c : Nat) ∧ startCol + (c : Nat) < bitmap.length then bitmap.getD (startCol + (c : Nat)).toNat 0x00#8
    else 0x00#8

/-- The direction of a scroll (R140). -/
inductive Direction where
  | left
  | right
deriving DecidableEq, Repr

/-- The values of `startCol` for a bitmap of length `len`, in order: left ascends from `0` to `len - 16`, right descends
from `len - 16` to `-16` (R140). -/
def sweep : Direction → Nat → List Int
  | .left, len => (List.range (len - 15)).map fun k : Nat => (k : Int)
  | .right, len => (List.range (len + 1)).map fun k => (len : Int) - 16 - (k : Nat)

/-- The packets of a scroll: one WINDOW per step (R140). -/
def scroll (bitmap : List Byte) (dir : Direction) : List Instr :=
  (sweep dir bitmap.length).map fun k => .window (windowAt bitmap k)

/-- The packets of `scrollText(text, frameDelayMs, direction)` (R62, R140). -/
def scrollText (text : List Char) (dir : Direction) : List Instr := scroll (render text) dir

/-- The host's moves for a list of packets, a sleep after each (R140, R142). -/
def scrollMoves (packets : List Instr) : List HostMove := packets.flatMap fun i => movesOfPacket (encode i) ++ [.wait]

end Sys2Proof.Machine
end

