-- ==== Sys2Proof/Machine/Sequencer.lean ====
section
/-! DEFINITION. The framer sequencer tick by tick, beside the machine (10_state.md R18; 42_transport_ops.md R90;
70_reset_and_hazards.md R180). The machine runs a command as one step and keeps no time (R18, D29); nothing in it calls
this file. -/

namespace Sys2Proof.Machine

/-- The sequencer while a command transports. The pin writes not yet performed determine its place: the frame, the byte, the
bit and the pin write of the bit (R18). -/
structure Sequencer where
  /-- The pin writes still to perform, in order. -/
  pending : List PinWrite
  /-- The ticks of the current hold still to pass, this one not counted (R90). -/
  hold : Nat
  /-- The levels it drives. -/
  lines : Lines
  /-- The pin writes performed. -/
  trace : List PinWrite
deriving DecidableEq, Repr

/-- `busy` (R22) as far as the pin writes and their holds make it: one of them is still to come. DESIGN CHOICE (log entry
14): the fixed overhead of R180, which the spec does not set (U14), is not counted here, as if it were zero, so this falls as
the last hold ends and is never high for a command without pin writes. `busyTicks` counts the overhead. -/
def Sequencer.busy (q : Sequencer) : Bool := !q.pending.isEmpty || q.hold != 0

/-- A command's pin writes are handed to an idle sequencer. -/
def Sequencer.load (ws : List PinWrite) (l : Lines) (tr : List PinWrite) : Sequencer :=
  { pending := ws, hold := 0, lines := l, trace := tr }

/-- One tick of the block clock: part of a hold passes, or the next pin write is performed and its hold of `tPhase` ticks,
this one the first, begins. Never two pin writes in one tick (R90). -/
def Sequencer.tick (tPhase : Nat) (q : Sequencer) : Sequencer :=
  match q.hold, q.pending with
  | h + 1, _ => { q with hold := h }
  | 0, [] => q
  | 0, w :: ws => { pending := ws, hold := tPhase - 1, lines := q.lines.write w, trace := q.trace ++ [w] }

/-- `n` ticks. -/
def Sequencer.ticks (tPhase : Nat) : Nat → Sequencer → Sequencer
  | 0, q => q
  | n + 1, q => Sequencer.ticks tPhase n (q.tick tPhase)

/-- `rst` at any tick: idle, both lines high at once, the trace restarted (R170, R172). -/
def Sequencer.abandon (_ : Sequencer) : Sequencer := Sequencer.load [] Lines.high []

/-- `P`, the pin writes of a command that is executed (R180). -/
def pinWriteCount : Instr → Nat
  | .init => 514
  | .rdst => 0
  | .clrst => 0
  | .fbget _ _ => 0
  | .fbset _ _ _ => 0
  | .fbclr => 0
  | .fbload _ => 0
  | .refresh => 480
  | .txwrite addr d => if malformedWrite addr d then 0 else 96 + 24 * d.length
  | .pwron => 512
  | .setpix _ _ _ => 480
  | .rect _ _ _ _ _ => 480
  | .line r0 c0 r1 c1 => if r0 = r1 ∨ c0 = c1 then 480 else 0
  | .image _ => 480
  | .window _ => 480

/-- How long a command keeps the `busy` output high: `P * T_PHASE` ticks, the part `Sequencer.busy` follows, plus the overhead
the spec does not set (R180, U14; log entry 14). -/
def busyTicks (i : Instr) : Nat := pinWriteCount i * Config.tPhase + Config.overheadTicks

end Sys2Proof.Machine
end

