-- ==== Sys2Proof/Safety.lean ====
section
/-! DEFINITION. The terms claims use: the invariant of the machine between commands, what a command leaves alone, what it
puts on the wire, and runs of several commands. -/

namespace Sys2Proof

open Sys2Proof.Machine

/-- The receiver stands between frames, or its position is not known since a reset while busy (R105, R172). -/
def NoFrameOpen (p : RxPhase) : Prop := p = .outside ∨ p = .unknown

/-- The link is idle: both lines are high (R9, R23), the receiver sees them so, and no frame is open (R105). -/
structure LinkIdle (s : State) : Prop where
  lines : s.lines = Lines.high
  seen : s.far.rx.lines = Lines.high
  closed : NoFrameOpen s.far.rx.phase

/-- What holds between any two commands. -/
structure MachineInv (s : State) : Prop where
  /-- The link is idle (R23, R105). -/
  link : LinkIdle s
  /-- Each line holds the level of the last pin write to it since reset left both high (R19, R23). -/
  traced : Lines.high.writeAll s.tr = s.lines
  /-- The reserved bits of `STATUS` are 0 (R14). -/
  reserved : s.status &&& 0xF0#8 = 0#8
  /-- Bits 7:4 of every response are 0 (R56). -/
  responses : ∀ b ∈ s.rs, b &&& 0xF0#8 = 0#8
  /-- The display memory keeps its canonical form, inside addresses 0 to 15 (R31, R36). -/
  canonical : Memory.wf s.far.sink.dm
  /-- The sink has met only frames the spec gives an effect (R37, U4). -/
  running : s.far.sink.stopped = false

/-- The same block, whatever the far end sees of it (R21, R36). -/
def SameBlock (s t : State) : Prop :=
  s.fb = t.fb ∧ s.lines = t.lines ∧ s.status = t.status ∧ s.rsp = t.rsp ∧ s.tr = t.tr ∧ s.rs = t.rs ∧
    s.packet = t.packet ∧ s.input = t.input

/-- Exactly these pin writes were made: on the lines, at the end of the trace, and at the far end (R90). -/
def PinWrites (s t : State) (ws : List PinWrite) : Prop :=
  t.lines = s.lines.writeAll ws ∧ t.tr = s.tr ++ ws ∧ t.far = s.far.steps ws

/-- No pin write: lines, trace and far end as before. -/
def NoPinWrite (s t : State) : Prop := t.lines = s.lines ∧ t.tr = s.tr ∧ t.far = s.far

/-- The command port is as before: bytes received and the host's moves to come. -/
def PortUnchanged (s t : State) : Prop := t.packet = s.packet ∧ t.input = s.input

/-- The bytes transferred by moves that neither end a packet nor reset: bytes with `cmd_last = 0`, and waits anywhere among
them, which transfer nothing (R22, R181; log entry 22). None for a list with another move in it. -/
def unmarkedBytes : List HostMove → Option (List Byte)
  | [] => some []
  | .byte b :: ms => (unmarkedBytes ms).map (b :: ·)
  | .wait :: ms => unmarkedBytes ms
  | .lastByte _ :: _ => none
  | .lastByteThenReset _ :: _ => none
  | .rst :: _ => none

/-- The host's moves complete this packet next, the bytes already received counted, and go on with `rest` (R22). -/
def Presents (s : State) (packet : List Byte) (rest : List HostMove) : Prop :=
  ∃ ms bs b, s.input = ms ++ .lastByte b :: rest ∧ unmarkedBytes ms = some bs ∧ packet = s.packet ++ bs ++ [b]

/-- The host's moves complete a packet next and assert `rst` while its command runs (R172). -/
def CutsShort (s : State) (rest : List HostMove) : Prop :=
  ∃ ms bs b, s.input = ms ++ .lastByteThenReset b :: rest ∧ unmarkedBytes ms = some bs

/-- The host's moves assert `rst` next, before any packet is complete (R170). -/
def ResetsIdle (s : State) (rest : List HostMove) : Prop := ∃ ms bs, s.input = ms ++ .rst :: rest ∧ unmarkedBytes ms = some bs

/-- The host resets the block next, while it is busy or idle. -/
def Resets (s : State) : Prop := ∃ rest, CutsShort s rest ∨ ResetsIdle s rest

/-- The command answered with one response byte (R56). -/
def Responded (s t : State) (b : Byte) : Prop := t.rs = s.rs ++ [b] ∧ t.rsp = b

/-- Every pixel of the matrix is as `f` says, `f row col` (R11). -/
def PixelsAre (t : State) (f : Nat → Nat → Bool) : Prop := ∀ r < 8, ∀ c < 16, t.pixel r c = f r c

/-- The block holds its reset values: buffer dark, lines high, `STATUS` zero, no packet part, no observations (R170). -/
def BlockAtReset (t : State) : Prop :=
  (∀ c < 16, t.column c = 0x00#8) ∧ t.lines.clk = true ∧ t.lines.dio = true ∧ t.status = 0x00#8 ∧ t.packet = [] ∧ t.tr = [] ∧
    t.rs = []

/-- The display shows the frame buffer: `DM[c] = FB[c]` (R39). -/
def Mirrors (s : State) : Prop := ∀ c < 16, Memory.read s.far.sink.dm c = some (s.column c)

/-- The sink as INIT leaves it: auto-increment, display on, memory all zero (R38). -/
def SinkCleared (t : State) : Prop :=
  t.far.sink.autoInc = true ∧ t.far.sink.displayOn = true ∧ ∀ a < 16, Memory.read t.far.sink.dm a = some 0x00#8

/-- The commands behind the init gate: all but INIT, RDST and CLRST (R15, R153). -/
def NeedsInit : Instr → Bool
  | .init => false
  | .rdst => false
  | .clrst => false
  | .fbget _ _ => true
  | .fbset _ _ _ => true
  | .fbclr => true
  | .fbload _ => true
  | .refresh => true
  | .txwrite _ _ => true
  | .pwron => true
  | .setpix _ _ _ => true
  | .rect _ _ _ _ _ => true
  | .line _ _ _ _ => true
  | .image _ => true
  | .window _ => true

/-- The commands that end in a refresh when executed: REFRESH and the raster commands, LINE only if axis-aligned (R89). -/
def Refreshes : Instr → Bool
  | .init => false
  | .rdst => false
  | .clrst => false
  | .fbget _ _ => false
  | .fbset _ _ _ => false
  | .fbclr => false
  | .fbload _ => false
  | .refresh => true
  | .txwrite _ _ => false
  | .pwron => false
  | .setpix _ _ _ => true
  | .rect _ _ _ _ _ => true
  | .line r0 c0 r1 c1 => decide (r0 = r1 ∨ c0 = c1)
  | .image _ => true
  | .window _ => true

/-- The commands that may change the frame buffer (R12). -/
def WritesFb : Instr → Bool
  | .init => true
  | .rdst => false
  | .clrst => false
  | .fbget _ _ => false
  | .fbset _ _ _ => true
  | .fbclr => true
  | .fbload _ => true
  | .refresh => false
  | .txwrite _ _ => false
  | .pwron => false
  | .setpix _ _ _ => true
  | .rect _ _ _ _ _ => true
  | .line _ _ _ _ => true
  | .image _ => true
  | .window _ => true

/-- The frames of a refresh of these column bytes, written out (R100). -/
def refreshFrames (fb : Bytes16) : List (List Byte) := [[0x40#8], 0xC0#8 :: fb.toList, [0x88#8]]

/-- The frames of a power-on, written out (R104). -/
def clearFrames : List (List Byte) := [[0x88#8], [0x40#8], 0xC0#8 :: List.replicate 16 0x00#8, [0x88#8]]

/-- The frames an executed command puts on the wire, given the frame buffer it leaves (R89, R100, R102 to R105, R120). -/
def commandFrames (i : Instr) (fb : Bytes16) : List (List Byte) :=
  match i with
  | .init => clearFrames
  | .rdst => []
  | .clrst => []
  | .fbget _ _ => []
  | .fbset _ _ _ => []
  | .fbclr => []
  | .fbload _ => []
  | .refresh => refreshFrames fb
  | .txwrite addr d =>
    if 15 < addr.toNat ∨ d.length = 0 ∨ 16 < addr.toNat + d.length then [] else [[0x40#8], (0xC0#8 + addr) :: d, [0x88#8]]
  | .pwron => clearFrames
  | .setpix _ _ _ => refreshFrames fb
  | .rect _ _ _ _ _ => refreshFrames fb
  | .line r0 c0 r1 c1 => if r0 = r1 ∨ c0 = c1 then refreshFrames fb else []
  | .image _ => refreshFrames fb
  | .window _ => refreshFrames fb

/-- INIT's two line writes before its frames: clock first (R120, D9). -/
def leadingWrites (i : Instr) : List PinWrite := if i = .init then [clockTo true, dataTo true] else []

/-- The rows of R55 as (byte 0, least packet length, greatest packet length). -/
def specRows : List (Nat × Nat × Nat) :=
  [(0x01, 1, 1), (0x02, 1, 1), (0x03, 1, 1), (0x10, 3, 3), (0x11, 4, 4), (0x12, 1, 1), (0x13, 17, 17)] ++
    [(0x20, 1, 1), (0x21, 2, 18), (0x22, 1, 1)] ++ [(0x30, 4, 4), (0x31, 6, 6), (0x32, 5, 5), (0x33, 17, 17), (0x34, 17, 17)]

/-- `illegal(packet)` in the words of R58, for a packet with opcode `op` and the bytes `args` after it. -/
def SpecIllegal (op : Byte) (args : List Byte) : Prop :=
  18 < (op :: args).length ∨ (∀ row ∈ specRows, op.toNat ≠ row.1) ∨
    (∃ row ∈ specRows, op.toNat = row.1 ∧ ¬(row.2.1 ≤ (op :: args).length ∧ (op :: args).length ≤ row.2.2)) ∨
    (∃ at_ ∈ [(0x11, 3), (0x30, 3), (0x31, 5)], op.toNat = at_.1 ∧ ∃ v, (op :: args)[at_.2]? = some v ∧ v ≠ 0x00#8 ∧ v ≠ 0x01#8)

/-- Instructions one after the other, stopping where one does not answer a next state (R40, R60). -/
def execAll : List Instr → State → Answer
  | [], s => .next s
  | i :: is, s =>
    match exec i s with
    | .next t => execAll is t
    | .fault r => .fault r
    | .refused r => .refused r

end Sys2Proof
end

