-- ==== Sys2Proof/Certificates/Slice0/Obligations.lean ====
section
/-! DEFINITION. The statements for the provers, in the order of spec/: encoding, the packet's stages, each command's result
and frame, whole-machine rules, the wire, the display, reset, and the host's routines. -/

open Sys2Proof Sys2Proof.Machine

/-! ### Encoding and decoding -/

/-- Every well-formed instruction decodes from its own packet, every operand at every value. -/
def Obligations.DecodeOfEncodeIsTheInstruction : Prop :=
  ∀ i : Instr, i.wellFormed = true → decode (encode i) = .ok i

/-- A legal packet is the packet of the instruction it decodes to, that instruction is well formed, and no other well-formed
instruction has that packet (R58: no encoding executes as another command). -/
def Obligations.LegalPacketIsTheEncoding : Prop :=
  ∀ (packet : List Byte) (i : Instr), decode packet = .ok i →
    encode i = packet ∧ i.wellFormed = true ∧ ∀ j : Instr, j.wellFormed = true → encode j = packet → j = i

/-- R58: a packet is illegal exactly when one of its four conditions holds. -/
def Obligations.IllegalExactlyAsListed : Prop :=
  ∀ (op : Byte) (args : List Byte), (∃ e, decode (op :: args) = .error e) ↔ SpecIllegal op args

/-- Words written out from R51, R55 and R61: one or more per family. -/
def Obligations.WrittenOutPacketsDecode : Prop :=
  decode [0x01#8] = .ok .init ∧ decode [0x02#8] = .ok .rdst ∧ decode [0x10#8, 0x02#8, 0x03#8] = .ok (.fbget 2 3) ∧
    decode [0x11#8, 0xFF#8, 0x00#8, 0x01#8] = .ok (.fbset 0xFF#8 0 true) ∧ decode [0x20#8] = .ok .refresh ∧
    decode [0x21#8, 0x03#8, 0xAA#8, 0x55#8] = .ok (.txwrite 3 [0xAA#8, 0x55#8]) ∧
    decode [0x31#8, 0x02#8, 0x02#8, 0x04#8, 0x03#8, 0x01#8] = .ok (.rect 2 2 4 3 true) ∧
    decode [0x32#8, 0x03#8, 0xFB#8, 0x03#8, 0x14#8] = .ok (.line 3 0xFB#8 3 0x14#8) ∧ decode [0x55#8] = .error .reservedOpcode

/-- R52: a coordinate or size byte is read as two's complement. -/
def Obligations.OperandIsSignedByte : Prop :=
  ∀ b : Byte, -128 ≤ int8 b ∧ int8 b ≤ 127 ∧ (b.toNat < 128 → int8 b = b.toNat) ∧ (128 ≤ b.toNat → int8 b = (b.toNat : Int) - 256)

/-! ### A packet's three stages -/

/-- The step runs the decoded instruction: when the bytes already received and the bytes still to come, the last one marked,
make a legal packet, the step is `exec` of its instruction, the packet taken from the port and the host's later moves left.
Waits may stand before and between the bytes; that one inside a packet has no effect is the model's reading (DEDUCED, log
entry 22). -/
def Obligations.StepRunsTheDecodedInstruction : Prop :=
  ∀ (s : State) (packet : List Byte) (rest : List HostMove) (i : Instr), Presents s packet rest → decode packet = .ok i →
    step s = exec i { s with packet := [], input := rest }

/-- R57 stage 1, R152: an illegal packet sets `ILL`, answers `0x04` and changes nothing else, whatever `INITD` is.
Waits may stand before and between its bytes; that one inside a packet has no effect is the model's reading (DEDUCED, log
entry 22). -/
def Obligations.IllegalPacketIsContained : Prop :=
  ∀ (s : State) (packet : List Byte) (rest : List HostMove) (e : Illegal), Presents s packet rest → decode packet = .error e →
    ∃ t, step s = .next t ∧ t.status = s.status ||| 0x04#8 ∧ Responded s t 0x04#8 ∧ t.fb = s.fb ∧ NoPinWrite s t ∧
      t.packet = [] ∧ t.input = rest

/-- R57 stage 2, R153: a command before INIT sets `NOINIT`, answers `0x08` and changes nothing else. -/
def Obligations.CommandBeforeInitIsContained : Prop :=
  ∀ (i : Instr) (s : State), NeedsInit i = true → s.initd = false →
    ∃ t, exec i s = .next t ∧ t.status = s.status ||| 0x08#8 ∧ Responded s t 0x08#8 ∧ t.fb = s.fb ∧ NoPinWrite s t ∧
      PortUnchanged s t

/-- R56: one response byte per command, its bits as the table says; `cp` advances by one (R17). -/
def Obligations.OneResponsePerCommand : Prop :=
  ∀ (i : Instr) (s : State), ∃ t b, exec i s = .next t ∧ Responded s t b ∧ t.cp = s.cp + 1 ∧ b &&& 0xF0#8 = 0#8 ∧
    (i = .rdst → b = s.status &&& 0x0F#8) ∧
    (i ≠ .rdst → b.getLsbD 2 = false ∧ b.getLsbD 3 = (NeedsInit i && !s.initd) ∧
      (b.getLsbD 0 = true → ∃ row col, i = .fbget row col ∧ s.pixel (int8 row).toNat (int8 col).toNat = true))

/-- Bytes without `cmd_last` only join the packet being received, and waits anywhere among them change nothing (R22). R181
speaks of waits between packets; that a wait inside a packet has no effect either, and that a step whose moves end inside a
packet keeps the part received, is the model's reading (log entry 22, DEDUCED; log entry 2, DESIGN CHOICE). -/
def Obligations.PartOfAPacketWaits : Prop :=
  ∀ (s : State) (bytes : List Byte), unmarkedBytes s.input = some bytes →
    step s = .next { s with packet := s.packet ++ bytes, input := [] }

/-! ### System commands -/

/-- R120: INIT, accepted whatever `INITD` is; 514 pin writes, 356 transitions from idle lines. The order of the two line writes and
the zero frame buffer are the spec's decision D9. -/
def Obligations.InitCommand : Prop :=
  decode [0x01#8] = .ok .init ∧
  ∀ s : State, ∃ t, exec .init s = .next t ∧ (∀ c < 16, t.column c = 0x00#8) ∧ t.status = s.status ||| 0x01#8 ∧
    Responded s t 0x00#8 ∧ PortUnchanged s t ∧
    PinWrites s t ([clockTo true, dataTo true] ++ frameWrites [0x88#8] ++ frameWrites [0x40#8] ++
      frameWrites (0xC0#8 :: List.replicate 16 0x00#8) ++ frameWrites [0x88#8]) ∧
    t.tr.length = s.tr.length + 514 ∧ (s.lines = Lines.high → transitions s.lines (t.tr.drop s.tr.length) = 356)

/-- R122: RDST, accepted whatever `INITD` is; reading does not clear. -/
def Obligations.RdstReadsStatus : Prop :=
  decode [0x02#8] = .ok .rdst ∧
  ∀ s : State, ∃ t, exec .rdst s = .next t ∧ Responded s t (s.status &&& 0x0F#8) ∧ t.status = s.status ∧ t.fb = s.fb ∧
    NoPinWrite s t ∧ PortUnchanged s t

/-- R123: CLRST, accepted whatever `INITD` is. -/
def Obligations.ClrstClearsStickyFlags : Prop :=
  decode [0x03#8] = .ok .clrst ∧
  ∀ s : State, ∃ t, exec .clrst s = .next t ∧ t.warnFlag = false ∧ t.illFlag = false ∧ t.noInitFlag = false ∧
    t.initd = s.initd ∧ t.status >>> 4 = s.status >>> 4 ∧ Responded s t 0x00#8 ∧ t.fb = s.fb ∧ NoPinWrite s t ∧
    PortUnchanged s t

/-! ### Frame-buffer commands, executed -/

/-- R70: FBGET answers the pixel, or warns and answers `0x02` outside the matrix (`VAL = 0` there is the spec's decision D19);
nothing else changes. -/
def Obligations.FbgetReadsPixel : Prop :=
  ∀ (s : State) (row col : Byte), s.initd = true →
    decode [0x10#8, row, col] = .ok (.fbget row col) ∧
    ∃ t, exec (.fbget row col) s = .next t ∧ t.fb = s.fb ∧ NoPinWrite s t ∧ PortUnchanged s t ∧
      ((0 ≤ int8 row ∧ int8 row ≤ 7 ∧ 0 ≤ int8 col ∧ int8 col ≤ 15) → t.status = s.status ∧
        Responded s t (if (s.column (int8 col).toNat).getLsbD (int8 row).toNat then 0x01#8 else 0x00#8)) ∧
      (¬(0 ≤ int8 row ∧ int8 row ≤ 7 ∧ 0 ≤ int8 col ∧ int8 col ≤ 15) → t.status = s.status ||| 0x02#8 ∧ Responded s t 0x02#8)

/-- R71: FBSET writes one pixel, or only warns outside the matrix; it does not refresh; any other `state` byte is illegal. -/
def Obligations.FbsetWritesPixel : Prop :=
  ∀ (s : State) (row col : Byte) (v : Bool), s.initd = true →
    decode [0x11#8, row, col, if v then 0x01#8 else 0x00#8] = .ok (.fbset row col v) ∧
    (∀ b : Byte, b ≠ 0x00#8 → b ≠ 0x01#8 → decode [0x11#8, row, col, b] = .error .badState) ∧
    ∃ t, exec (.fbset row col v) s = .next t ∧ NoPinWrite s t ∧ PortUnchanged s t ∧
      PixelsAre t (fun r c => if (r : Int) = int8 row ∧ (c : Int) = int8 col then v else s.pixel r c) ∧
      ((0 ≤ int8 row ∧ int8 row ≤ 7 ∧ 0 ≤ int8 col ∧ int8 col ≤ 15) → t.status = s.status ∧ Responded s t 0x00#8) ∧
      (¬(0 ≤ int8 row ∧ int8 row ≤ 7 ∧ 0 ≤ int8 col ∧ int8 col ≤ 15) →
        t.fb = s.fb ∧ t.status = s.status ||| 0x02#8 ∧ Responded s t 0x02#8)

/-- R72: FBCLR; that it does not refresh is the spec's decision D14. -/
def Obligations.FbclrZeroesEveryColumn : Prop :=
  ∀ s : State, s.initd = true →
    decode [0x12#8] = .ok .fbclr ∧
    ∃ t, exec .fbclr s = .next t ∧ (∀ c < 16, t.column c = 0x00#8) ∧ Responded s t 0x00#8 ∧ t.status = s.status ∧
      NoPinWrite s t ∧ PortUnchanged s t

/-- R73: FBLOAD packs row bits into columns; it does not refresh. -/
def Obligations.FbloadUnpacksImage : Prop :=
  ∀ (s : State) (p : Bytes16), s.initd = true →
    decode (0x13#8 :: p.toList) = .ok (.fbload p) ∧
    ∃ t, exec (.fbload p) s = .next t ∧ PixelsAre t (fun r c => (p.toList.getD (2 * r + c / 8) 0x00#8).getLsbD (c % 8)) ∧
      Responded s t 0x00#8 ∧ t.status = s.status ∧ NoPinWrite s t ∧ PortUnchanged s t

/-- R74 and R73: the packing of an image matrix, which is the spec's own (decision D18), and that loading `pack(m)` gives the
pixels `m`. -/
def Obligations.PackedImageLoadsAsItsMatrix : Prop :=
  ∀ (s : State) (m : Nat → Nat → Bool), s.initd = true →
    (∀ r < 8, ∀ c < 16, ((packImage m).toList.getD (2 * r + c / 8) 0x00#8).getLsbD (c % 8) = m r c) ∧
    ∃ t, exec (.fbload (packImage m)) s = .next t ∧ PixelsAre t m

/-- R76: write then read, every other pixel kept; clear then read; the bounds no-op. -/
def Obligations.PixelRoundTrip : Prop :=
  (∀ (s : State) (row col : Byte) (v : Bool) (i : Instr), s.initd = true → (0 ≤ int8 row ∧ int8 row ≤ 7) →
    (0 ≤ int8 col ∧ int8 col ≤ 15) → i = .fbset row col v ∨ i = .setpix row col v →
    ∃ t, execAll [i, .fbget row col] s = .next t ∧ t.rsp = (if v then 0x01#8 else 0x00#8) ∧
      ∀ r c : Nat, r < 8 → c < 16 → ¬((r : Int) = int8 row ∧ (c : Int) = int8 col) → t.pixel r c = s.pixel r c) ∧
  (∀ (s : State) (row col : Byte), s.initd = true → (0 ≤ int8 row ∧ int8 row ≤ 7) → (0 ≤ int8 col ∧ int8 col ≤ 15) →
    ∃ t, execAll [.fbclr, .fbget row col] s = .next t ∧ t.rsp = 0x00#8) ∧
  (∀ (s : State) (row col : Byte) (v : Bool) (i : Instr), s.initd = true →
    ¬(0 ≤ int8 row ∧ int8 row ≤ 7 ∧ 0 ≤ int8 col ∧ int8 col ≤ 15) → i = .fbset row col v ∨ i = .setpix row col v →
    ∃ t, exec i s = .next t ∧ t.fb = s.fb)

/-! ### Raster commands, executed -/

/-- R80: SETPIX writes one pixel or warns, and refreshes in both cases (the spec's decision D15). -/
def Obligations.SetpixWritesPixelAndRefreshes : Prop :=
  ∀ (s : State) (row col : Byte) (v : Bool), s.initd = true →
    decode [0x30#8, row, col, if v then 0x01#8 else 0x00#8] = .ok (.setpix row col v) ∧
    ∃ t, exec (.setpix row col v) s = .next t ∧ PortUnchanged s t ∧
      PinWrites s t (frameWrites [0x40#8] ++ frameWrites (0xC0#8 :: t.fb.toList) ++ frameWrites [0x88#8]) ∧
      t.tr.length = s.tr.length + 480 ∧
      PixelsAre t (fun r c => if (r : Int) = int8 row ∧ (c : Int) = int8 col then v else s.pixel r c) ∧
      ((0 ≤ int8 row ∧ int8 row ≤ 7 ∧ 0 ≤ int8 col ∧ int8 col ≤ 15) → t.status = s.status ∧ Responded s t 0x00#8) ∧
      (¬(0 ≤ int8 row ∧ int8 row ≤ 7 ∧ 0 ≤ int8 col ∧ int8 col ≤ 15) →
        t.fb = s.fb ∧ t.status = s.status ||| 0x02#8 ∧ Responded s t 0x02#8)

/-- R82: RECT sets exactly the clipped rectangle to `state`, never wraps, never warns, and refreshes once,
even when it is empty (the spec's decision D17). -/
def Obligations.RectSetsClippedRectangle : Prop :=
  ∀ (s : State) (x y w h : Byte) (v : Bool), s.initd = true →
    decode [0x31#8, x, y, w, h, if v then 0x01#8 else 0x00#8] = .ok (.rect x y w h v) ∧
    ∃ t, exec (.rect x y w h v) s = .next t ∧ PortUnchanged s t ∧ t.status = s.status ∧ Responded s t 0x00#8 ∧
      PinWrites s t (frameWrites [0x40#8] ++ frameWrites (0xC0#8 :: t.fb.toList) ++ frameWrites [0x88#8]) ∧
      PixelsAre t (fun r c =>
        if (int8 x ≤ c ∧ (c : Int) < int8 x + int8 w) ∧ (int8 y ≤ r ∧ (r : Int) < int8 y + int8 h) then v else s.pixel r c)

/-- R84: a horizontal LINE lights its clipped columns, warns only if its row is outside and a column was swept, and
refreshes once (the refresh and the warning are the spec's decisions D16, D30). -/
def Obligations.HorizontalLineLightsItsRow : Prop :=
  ∀ (s : State) (r0 c0 r1 c1 : Byte), s.initd = true → int8 r0 = int8 r1 →
    ∃ t, exec (.line r0 c0 r1 c1) s = .next t ∧ PortUnchanged s t ∧
      PinWrites s t (frameWrites [0x40#8] ++ frameWrites (0xC0#8 :: t.fb.toList) ++ frameWrites [0x88#8]) ∧
      PixelsAre t (fun r c => if (r : Int) = int8 r0 ∧ min (int8 c0) (int8 c1) ≤ c ∧ (c : Int) ≤ max (int8 c0) (int8 c1) then
        true else s.pixel r c) ∧
      ((0 ≤ int8 r0 ∧ int8 r0 ≤ 7) ∨ max (int8 c0) (int8 c1) < 0 ∨ 15 < min (int8 c0) (int8 c1) →
        t.status = s.status ∧ Responded s t 0x00#8) ∧
      (¬(0 ≤ int8 r0 ∧ int8 r0 ≤ 7) ∧ 0 ≤ max (int8 c0) (int8 c1) ∧ min (int8 c0) (int8 c1) ≤ 15 →
        t.status = s.status ||| 0x02#8 ∧ Responded s t 0x02#8)

/-- R84: a vertical LINE lights its clipped rows, warns only if its column is outside and a row was swept, and refreshes
once (the spec's decisions D16, D30). -/
def Obligations.VerticalLineLightsItsColumn : Prop :=
  ∀ (s : State) (r0 c0 r1 c1 : Byte), s.initd = true → int8 r0 ≠ int8 r1 → int8 c0 = int8 c1 →
    ∃ t, exec (.line r0 c0 r1 c1) s = .next t ∧ PortUnchanged s t ∧
      PinWrites s t (frameWrites [0x40#8] ++ frameWrites (0xC0#8 :: t.fb.toList) ++ frameWrites [0x88#8]) ∧
      PixelsAre t (fun r c => if (c : Int) = int8 c0 ∧ min (int8 r0) (int8 r1) ≤ r ∧ (r : Int) ≤ max (int8 r0) (int8 r1) then
        true else s.pixel r c) ∧
      ((0 ≤ int8 c0 ∧ int8 c0 ≤ 15) ∨ max (int8 r0) (int8 r1) < 0 ∨ 7 < min (int8 r0) (int8 r1) →
        t.status = s.status ∧ Responded s t 0x00#8) ∧
      (¬(0 ≤ int8 c0 ∧ int8 c0 ≤ 15) ∧ 0 ≤ max (int8 r0) (int8 r1) ∧ min (int8 r0) (int8 r1) ≤ 7 →
        t.status = s.status ||| 0x02#8 ∧ Responded s t 0x02#8)

/-- R84, R156: a diagonal LINE is a no-op of the whole call: no pixel, no pin write, no warning. -/
def Obligations.DiagonalLineDoesNothing : Prop :=
  ∀ (s : State) (r0 c0 r1 c1 : Byte), s.initd = true → int8 r0 ≠ int8 r1 → int8 c0 ≠ int8 c1 →
    ∃ t, exec (.line r0 c0 r1 c1) s = .next t ∧ t.fb = s.fb ∧ t.status = s.status ∧ Responded s t 0x00#8 ∧ NoPinWrite s t ∧
      PortUnchanged s t

/-- R87: IMAGE loads the matrix as FBLOAD does, then refreshes once. -/
def Obligations.ImageLoadsMatrixAndRefreshes : Prop :=
  ∀ (s : State) (p : Bytes16), s.initd = true →
    decode (0x33#8 :: p.toList) = .ok (.image p) ∧
    ∃ t, exec (.image p) s = .next t ∧ PixelsAre t (fun r c => (p.toList.getD (2 * r + c / 8) 0x00#8).getLsbD (c % 8)) ∧
      PinWrites s t (frameWrites [0x40#8] ++ frameWrites (0xC0#8 :: t.fb.toList) ++ frameWrites [0x88#8]) ∧
      Responded s t 0x00#8 ∧ t.status = s.status ∧ PortUnchanged s t

/-- R88: WINDOW loads sixteen column bytes, then refreshes once. -/
def Obligations.WindowLoadsColumnsAndRefreshes : Prop :=
  ∀ (s : State) (p : Bytes16), s.initd = true →
    decode (0x34#8 :: p.toList) = .ok (.window p) ∧
    ∃ t, exec (.window p) s = .next t ∧ t.fb = p ∧
      PinWrites s t (frameWrites [0x40#8] ++ frameWrites (0xC0#8 :: p.toList) ++ frameWrites [0x88#8]) ∧
      Responded s t 0x00#8 ∧ t.status = s.status ∧ PortUnchanged s t

/-! ### Transport commands, executed -/

/-- R100: REFRESH pushes the frame buffer, 480 pin writes in three frames. -/
def Obligations.RefreshPushesFrameBuffer : Prop :=
  ∀ s : State, s.initd = true →
    decode [0x20#8] = .ok .refresh ∧
    ∃ t, exec .refresh s = .next t ∧ t.fb = s.fb ∧ t.status = s.status ∧ Responded s t 0x00#8 ∧ PortUnchanged s t ∧
      PinWrites s t (frameWrites [0x40#8] ++ frameWrites (0xC0#8 :: s.fb.toList) ++ frameWrites [0x88#8]) ∧
      t.tr.length = s.tr.length + 480

/-- R101, R102: a TXWRITE that fits emits the three-frame write, `96 + 24 * n` pin writes, and touches nothing else. The address
opcode `0xC0 + addr` for `addr > 0` is the spec's general knowledge ("from general knowledge, not in source"; log entry 12). -/
def Obligations.TxwriteEmitsThreeFrames : Prop :=
  ∀ (s : State) (addr : Byte) (d : List Byte), s.initd = true → addr.toNat ≤ 15 → 1 ≤ d.length → addr.toNat + d.length ≤ 16 →
    decode (0x21#8 :: addr :: d) = .ok (.txwrite addr d) ∧
    ∃ t, exec (.txwrite addr d) s = .next t ∧ t.fb = s.fb ∧ t.status = s.status ∧ Responded s t 0x00#8 ∧ PortUnchanged s t ∧
      PinWrites s t (frameWrites [0x40#8] ++ frameWrites (BitVec.ofNat 8 (0xC0 + addr.toNat) :: d) ++ frameWrites [0x88#8]) ∧
      t.tr.length = s.tr.length + 96 + 24 * d.length

/-- R103: a malformed TXWRITE emits nothing and says nothing; that a payload past address 15 is malformed is the spec's
decision D12. -/
def Obligations.MalformedTxwriteIsSilent : Prop :=
  ∀ (s : State) (addr : Byte) (d : List Byte), s.initd = true → 15 < addr.toNat ∨ d = [] ∨ 16 < addr.toNat + d.length →
    ∃ t, exec (.txwrite addr d) s = .next t ∧ t.fb = s.fb ∧ t.status = s.status ∧ Responded s t 0x00#8 ∧ NoPinWrite s t ∧
      PortUnchanged s t

/-- R104: PWRON sends four frames, 512 pin writes, 336 clock and 20 data transitions from idle, and touches nothing else; the
framing is the spec's decision D11. -/
def Obligations.PwronSendsFourFrames : Prop :=
  ∀ s : State, s.initd = true →
    decode [0x22#8] = .ok .pwron ∧
    ∃ t, exec .pwron s = .next t ∧ t.fb = s.fb ∧ t.status = s.status ∧ Responded s t 0x00#8 ∧ PortUnchanged s t ∧
      PinWrites s t (frameWrites [0x88#8] ++ frameWrites [0x40#8] ++ frameWrites (0xC0#8 :: List.replicate 16 0x00#8) ++
        frameWrites [0x88#8]) ∧ t.tr.length = s.tr.length + 512 ∧
      (s.lines = Lines.high → transitionsOn .clk s.lines (t.tr.drop s.tr.length) = 336 ∧
        transitionsOn .dio s.lines (t.tr.drop s.tr.length) = 20)

/-! ### Rules of the whole machine -/

/-- No step stops, whatever the next of the host's moves. R150 and R178 say so of commands; of the other steps it is the model's
reading (DEDUCED, log entry 21): an idle stretch or part of a packet (R181; log entries 2 and 22), a reset while idle (R170), and
a reset while busy, which R181 assumes never to happen or refuses and the model runs with the display unknown (R172, U5; log
entry 3). -/
def Obligations.EveryStepAnswersNext : Prop := ∀ s : State, ∃ t, step s = .next t

/-- R12: the commands that do not write the frame buffer leave every byte of it. -/
def Obligations.OnlyDrawingCommandsWriteFrameBuffer : Prop :=
  ∀ (i : Instr) (s t : State), WritesFb i = false → exec i s = .next t → t.fb = s.fb

/-- R14, R15, over commands and over steps: the sticky flags fall only by CLRST or reset, `INITD` falls only by reset and rises
only by INIT, no command writes a reserved bit, and a reset, idle or busy, clears `STATUS` (R170). That a step takes a reset
while busy, waits inside a packet and part of a packet is the model's reading (log entries 2, 3 and 22). -/
def Obligations.StatusFlagsAreSticky : Prop :=
  (∀ (i : Instr) (s t : State), exec i s = .next t →
    (i ≠ .clrst → ∀ k, 1 ≤ k → k ≤ 3 → s.status.getLsbD k = true → t.status.getLsbD k = true) ∧
    (s.initd = true → t.initd = true) ∧ (t.initd = true → s.initd = true ∨ i = .init) ∧
    t.status >>> 4 = s.status >>> 4) ∧
  ∀ s t : State, step s = .next t →
    (¬Resets s → (∀ packet rest, Presents s packet rest → decode packet ≠ .ok .clrst) →
      ∀ k, 1 ≤ k → k ≤ 3 → s.status.getLsbD k = true → t.status.getLsbD k = true) ∧
    (¬Resets s → s.initd = true → t.initd = true) ∧
    (t.initd = true → s.initd = true ∨ ∃ packet rest, Presents s packet rest ∧ decode packet = .ok .init) ∧
    (¬Resets s → t.status >>> 4 = s.status >>> 4) ∧ (Resets s → t.status = 0x00#8)

/-- R14: no command's result depends on the sticky flags, and they never block a command. -/
def Obligations.StickyFlagsNeverBlock : Prop :=
  ∀ (i : Instr) (s t : State) (b : Byte), b.getLsbD 0 = s.initd → exec i s = .next t →
    ∃ t', exec i { s with status := b } = .next t' ∧ t'.fb = t.fb ∧ t'.lines = t.lines ∧ t'.tr = t.tr ∧ t'.far = t.far ∧
      t'.packet = t.packet ∧ t'.input = t.input ∧ (i ≠ .rdst → t'.rs = t.rs)

/-- R21, R23, R36: the block never reads the far end of the link, over every step the model takes, an idle stretch and a reset
while busy among them (log entries 2, 3 and 22). -/
def Obligations.BlockNeverReadsTheFarEnd : Prop :=
  ∀ (s t : State) (f : FarEnd), step s = .next t → ∃ t', step { s with far := f } = .next t' ∧ SameBlock t t'

/-- R178, R180: the pin writes of an executed command, never more than 514. -/
def Obligations.PinWriteCounts : Prop :=
  ∀ (i : Instr) (s t : State), i.wellFormed = true → (NeedsInit i = true → s.initd = true) → exec i s = .next t →
    ∃ ws, t.tr = s.tr ++ ws ∧ ws.length = pinWriteCount i ∧ ws.length ≤ 514

/-- The invariant holds right after reset. -/
def Obligations.ResetMeetsInvariant : Prop := MachineInv State.reset

/-- Every step keeps the invariant, whatever the host's next move: idle lines, no frame open, reserved bits zero, response
bits zero, the display memory's canonical form, the sink never refusing. That the sink takes the address byte
`0xC0 + addr` for `addr > 0` is the spec's general knowledge (U3; log entry 12, PRESUMED); what a reset while busy leaves at the
far end is log entries 3 and 8. -/
def Obligations.EveryStepKeepsInvariant : Prop := ∀ s t : State, MachineInv s → step s = .next t → MachineInv t

/-! ### The wire -/

/-- R19, R91 to R96: inside every frame the data line changes only while the clock is low, every clock write is a
transition, and the counts of one-byte frames. -/
def Obligations.FrameSignalling : Prop :=
  (∀ (bs : List Byte) (before after : List PinWrite) (w : PinWrite), bs ≠ [] → frameWrites bs = before ++ w :: after →
    (w.line = .clk → (Lines.high.writeAll before).changes w = true) ∧
    (w.line = .dio → 4 ≤ before.length → after ≠ [] → (Lines.high.writeAll before).changes w = true →
      (Lines.high.writeAll before).clk = false)) ∧
  (∀ b : Byte, (frameWrites [b]).length = 32 ∧ transitionsOn .clk Lines.high (frameWrites [b]) = 20) ∧
  transitionsOn .dio Lines.high (frameWrites [0x40#8]) = 4 ∧ transitionsOn .dio Lines.high (frameWrites [0xC0#8]) = 4 ∧
  transitionsOn .dio Lines.high (frameWrites [0x88#8]) = 6

/-- R94, R95: the writes of a byte and of a frame, most significant bit first, their counts, and the levels they leave. -/
def Obligations.FrameIsStartBytesEnd : Prop :=
  (∀ (v : Byte) (l : Lines), (byteWrites v).length = 24 ∧ l.writeAll (byteWrites v) = { clk := true, dio := v.getLsbD 0 }) ∧
  ∀ bs : List Byte, (frameWrites bs).length = 8 + 24 * bs.length ∧ Lines.high.writeAll (frameWrites bs) = Lines.high ∧
    frameWrites bs =
    [⟨.clk, false⟩, ⟨.clk, true⟩, ⟨.dio, true⟩, ⟨.dio, false⟩] ++
      (bs.flatMap fun v => (List.range 8).flatMap fun k =>
        [⟨.clk, false⟩, ⟨.dio, v.getLsbD (7 - k)⟩, ⟨.clk, true⟩]) ++
      [⟨.clk, false⟩, ⟨.dio, false⟩, ⟨.clk, true⟩, ⟨.dio, true⟩]

/-- R112: the reference receiver, run from idle over a frame, reads exactly its bytes and is idle again. -/
def Obligations.ReceiverReadsFrame : Prop :=
  ∀ (bs : List Byte) (done : List (List Byte)), bs ≠ [] →
    (frameWrites bs).foldl Receiver.step { lines := Lines.high, phase := .outside, frames := done } =
      { lines := Lines.high, phase := .outside, frames := done ++ [bs] }

/-- R105, R112: every executed command puts a whole number of frames on the wire, the ones its rule lists, and the receiver
reads exactly them. TXWRITE's address byte `0xC0 + addr` for `addr > 0` is the spec's general knowledge ("from general
knowledge, not in source", U3; log entry 12, PRESUMED). -/
def Obligations.CommandsSendWholeFrames : Prop :=
  ∀ (i : Instr) (s t : State), LinkIdle s → (NeedsInit i = true → s.initd = true) → exec i s = .next t →
    t.tr = s.tr ++ leadingWrites i ++ (commandFrames i t.fb).flatMap frameWrites ∧
    t.far.rx.frames = s.far.rx.frames ++ commandFrames i t.fb ∧ LinkIdle t

/-- The counts the spec works out for whole commands (R100, R102): clock and data transitions from idle. Those of TXWRITE 3,
[AA 55] rest on its address byte `0xC3`, the spec's general knowledge (U3; log entry 12, PRESUMED). -/
def Obligations.WorkedTransitionCounts : Prop :=
  let dark : Bytes16 := Vector.replicate 16 0x00#8
  let drawn : List Byte := [0x00#8, 0x00#8, 0x1C#8, 0x1C#8, 0x1C#8, 0x1C#8] ++ List.replicate 10 0x00#8
  transitionsOn .clk Lines.high (write3 0x00#8 dark.toList) = 316 ∧ transitionsOn .dio Lines.high (write3 0x00#8 dark.toList) = 14 ∧
    transitionsOn .clk Lines.high (write3 0x00#8 drawn) = 316 ∧ transitionsOn .dio Lines.high (write3 0x00#8 drawn) = 22 ∧
    transitionsOn .clk Lines.high (write3 0x03#8 [0xAA#8, 0x55#8]) = 92 ∧
    transitionsOn .dio Lines.high (write3 0x03#8 [0xAA#8, 0x55#8]) = 30

/-- R18, R90, R180: the tick-by-tick sequencer performs the pin writes a step makes, in order, transporting for `P * T_PHASE`
ticks, and then is idle. The fixed overhead that R180 adds to `busy` and the spec does not set (U14) is left out, the model's
choice (log entry 14, DESIGN CHOICE); the sequencer stands beside the machine (log entry 1). -/
def Obligations.SequencerPerformsTheWrites : Prop :=
  ∀ (tPhase : Nat) (ws : List PinWrite) (l : Lines) (tr : List PinWrite), 1 ≤ tPhase →
    Sequencer.ticks tPhase (ws.length * tPhase) (Sequencer.load ws l tr) =
      { pending := [], hold := 0, lines := l.writeAll ws, trace := tr ++ ws } ∧
    ∀ n < ws.length * tPhase, (Sequencer.ticks tPhase n (Sequencer.load ws l tr)).busy = true

/-! ### The display -/

/-- R39 (derived by the spec): after any command that refreshes, on an intact link, the display memory equals the frame buffer. -/
def Obligations.RefreshMirrorsFrameBuffer : Prop :=
  ∀ (i : Instr) (s t : State), MachineInv s → s.initd = true → Refreshes i = true → exec i s = .next t → Mirrors t

/-- R33, R37, R39: a TXWRITE that fits changes exactly its addresses of the display memory; the pointer and the flags follow
R37. -/
def Obligations.TxwriteStoresAtItsAddress : Prop :=
  ∀ (s t : State) (addr : Byte) (d : List Byte), MachineInv s → s.initd = true → 1 ≤ d.length → addr.toNat + d.length ≤ 16 →
    exec (.txwrite addr d) s = .next t →
    (∀ k < d.length, Memory.read t.far.sink.dm (addr.toNat + k) = d[k]?) ∧
    (∀ a, a < addr.toNat ∨ addr.toNat + d.length ≤ a → Memory.read t.far.sink.dm a = Memory.read s.far.sink.dm a) ∧
    t.far.sink.autoInc = true ∧ t.far.sink.displayOn = true ∧ t.far.sink.pointer.toNat = (addr.toNat + d.length) % 16

/-- R38, R104, R120: INIT, from any state between commands, and PWRON leave the display on, in auto-increment, all dark. -/
def Obligations.PowerOnClearsTheDisplay : Prop :=
  ∀ (i : Instr) (s t : State), MachineInv s → i = .init ∨ (i = .pwron ∧ s.initd = true) → exec i s = .next t → SinkCleared t

/-- R37, last arm, and U4: a frame no source gives an effect stops the sink, and a stopped sink stays stopped (the model's
reading, log entry 7). -/
def Obligations.UnknownFrameStopsTheSink : Prop :=
  ∀ (k : Sink) (b0 : Byte) (data : List Byte), (b0 = 0x40#8 ∨ b0 = 0x88#8 → data ≠ []) →
    ¬(0xC0 ≤ b0.toNat ∧ b0.toNat ≤ 0xCF ∧ k.autoInc = true ∧ b0.toNat - 0xC0 + data.length ≤ 16) →
    (k.takeFrame (b0 :: data)).stopped = true ∧ ∀ bs, (k.takeFrame (b0 :: data)).takeFrame bs = k.takeFrame (b0 :: data)

/-! ### Reset -/

/-- R170, R181: `rst` while idle puts every part of the block at its reset value, discards a partly received packet with no
response, and leaves what the sink has; the sequencer is idle. Waits may stand before and between the bytes of that packet; that
they have no effect there is the model's reading (DEDUCED, log entry 22). -/
def Obligations.IdleResetRestoresTheBlock : Prop :=
  (∀ (s : State) (rest : List HostMove), ResetsIdle s rest →
    ∃ t, step s = .next t ∧ BlockAtReset t ∧ t.input = rest ∧ t.far.sink = s.far.sink) ∧
  (∀ q : Sequencer, q.abandon.busy = false ∧ q.abandon.lines = Lines.high) ∧ BlockAtReset State.reset

/-- R172, U5: after `rst` while busy the block is as after any reset and the sink has no value of its own left; the next INIT
restores a known sink (the model's reading of U5, log entry 3). -/
def Obligations.BusyResetForgetsTheDisplay : Prop :=
  ∀ (s : State) (rest : List HostMove), MachineInv s → CutsShort s rest →
    ∃ t u, step s = .next t ∧ BlockAtReset t ∧ t.input = rest ∧ t.far.rx.phase = .unknown ∧
      (∀ a, Memory.read t.far.sink.dm a = none) ∧ t.far.sink.ap = .free ∧ t.far.sink.ai = .free ∧
      t.far.sink.dispOn = .free ∧ t.far.sink.generation = s.far.sink.generation + 1 ∧
      exec .init t = .next u ∧ SinkCleared u ∧ u.far.rx.phase = .outside

/-! ### The host's routines -/

/-- R61, R62: a host operand inside -128 to 127 is encoded as the byte that reads back as it; any other is not encodable. -/
def Obligations.HostOperandReadsBack : Prop :=
  ∀ v : Int, ((-128 ≤ v ∧ v ≤ 127) → ∃ b, signedOperand v = some b ∧ int8 b = v) ∧
    (¬(-128 ≤ v ∧ v ≤ 127) → signedOperand v = none)

/-- R132: the length of the composite bitmap, its blank lead and trail, and glyph and separator columns. -/
def Obligations.RenderedTextLayout : Prop :=
  ∀ text : List Char, (render text).length = (if text = [] then 32 else 6 * text.length + 31) ∧
    (∀ k < 16, (render text)[k]? = some 0x00#8 ∧ (render text)[(render text).length - 1 - k]? = some 0x00#8) ∧
    ∀ n (h : n < text.length), (∀ j (_ : j < 5), (render text)[16 + 6 * n + j]? = (lookupGlyph text[n]).toList[j]?) ∧
      (n + 1 < text.length → (render text)[16 + 6 * n + 5]? = some 0x00#8)

/-- R131: lookup normalizes case, and a character whose upper case has no glyph takes the space glyph. Upper-casing is Lean's
`Char.toUpper`, the model's choice (log entry 15). -/
def Obligations.UnsupportedCharacterIsSpace : Prop :=
  (∀ c : Char, hasGlyph c.toUpper = false → lookupGlyph c = lookupGlyph ' ') ∧
    (∀ c d : Char, c.toUpper = d.toUpper → lookupGlyph c = lookupGlyph d) ∧
    lookupGlyph '1' = lookupGlyph ' ' ∧ lookupGlyph 'a' = lookupGlyph 'A' ∧ lookupGlyph 'z' = lookupGlyph 'Z' ∧
    ∀ c d : Char, hasGlyph d.toUpper = false → render [c, d] = render [c, ' ']

/-- R140: a left scroll visits `0` to `L - 16` strictly ascending, a right scroll `L - 16` to `-16` strictly descending, one
WINDOW of R139 per step. -/
def Obligations.ScrollSweepCoverage : Prop :=
  ∀ bitmap : List Byte, 16 ≤ bitmap.length →
    (∀ k : Int, k ∈ sweep .left bitmap.length ↔ 0 ≤ k ∧ k ≤ (bitmap.length : Int) - 16) ∧
    (sweep .left bitmap.length).Pairwise (fun a b => a < b) ∧
    (∀ k : Int, k ∈ sweep .right bitmap.length ↔ -16 ≤ k ∧ k ≤ (bitmap.length : Int) - 16) ∧
    (sweep .right bitmap.length).Pairwise (fun a b => b < a) ∧
    ∀ (dir : Direction) (n : Nat) (k : Int), (sweep dir bitmap.length)[n]? = some k →
      ∃ w : Bytes16, (scroll bitmap dir)[n]? = some (.window w) ∧
        ∀ c : Nat, c < 16 → byteAt w c =
          if 0 ≤ k + (c : Int) ∧ k + (c : Int) < bitmap.length then bitmap.getD (k + (c : Int)).toNat 0x00#8 else 0x00#8

/-- R141: a complete scroll of a rendered text, in either direction, runs from any initialised state and leaves the buffer
dark, `STATUS` as it was, one response per step. -/
def Obligations.ScrollEndsDark : Prop :=
  ∀ (s : State) (text : List Char) (dir : Direction), s.initd = true →
    ∃ t, execAll (scrollText text dir) s = .next t ∧ (∀ c < 16, t.column c = 0x00#8) ∧ t.status = s.status ∧
      t.rs = s.rs ++ List.replicate (scrollText text dir).length 0x00#8
end

