-- ==== Sys2Proof/Laws/State.lean ====
section
/-! SUPPORT. One lemma per field per update of State, so that no proof unfolds a record update. -/

namespace Sys2Proof.Machine

@[simp] theorem setRsp_fb (b : Byte) (s : State) : (s.setRsp b).fb = s.fb := rfl
@[simp] theorem setRsp_lines (b : Byte) (s : State) : (s.setRsp b).lines = s.lines := rfl
@[simp] theorem setRsp_status (b : Byte) (s : State) : (s.setRsp b).status = s.status := rfl
@[simp] theorem setRsp_rsp (b : Byte) (s : State) : (s.setRsp b).rsp = b := rfl
@[simp] theorem setRsp_tr (b : Byte) (s : State) : (s.setRsp b).tr = s.tr := rfl
@[simp] theorem setRsp_rs (b : Byte) (s : State) : (s.setRsp b).rs = s.rs := rfl
@[simp] theorem setRsp_packet (b : Byte) (s : State) : (s.setRsp b).packet = s.packet := rfl
@[simp] theorem setRsp_input (b : Byte) (s : State) : (s.setRsp b).input = s.input := rfl
@[simp] theorem setRsp_far (b : Byte) (s : State) : (s.setRsp b).far = s.far := rfl

@[simp] theorem raiseFlag_fb (m : Byte) (s : State) : (s.raiseFlag m).fb = s.fb := rfl
@[simp] theorem raiseFlag_lines (m : Byte) (s : State) : (s.raiseFlag m).lines = s.lines := rfl
@[simp] theorem raiseFlag_status (m : Byte) (s : State) : (s.raiseFlag m).status = s.status ||| m := rfl
@[simp] theorem raiseFlag_rsp (m : Byte) (s : State) : (s.raiseFlag m).rsp = s.rsp := rfl
@[simp] theorem raiseFlag_tr (m : Byte) (s : State) : (s.raiseFlag m).tr = s.tr := rfl
@[simp] theorem raiseFlag_rs (m : Byte) (s : State) : (s.raiseFlag m).rs = s.rs := rfl
@[simp] theorem raiseFlag_packet (m : Byte) (s : State) : (s.raiseFlag m).packet = s.packet := rfl
@[simp] theorem raiseFlag_input (m : Byte) (s : State) : (s.raiseFlag m).input = s.input := rfl
@[simp] theorem raiseFlag_far (m : Byte) (s : State) : (s.raiseFlag m).far = s.far := rfl

@[simp] theorem clearSticky_fb (s : State) : (s.clearSticky).fb = s.fb := rfl
@[simp] theorem clearSticky_lines (s : State) : (s.clearSticky).lines = s.lines := rfl
@[simp] theorem clearSticky_status (s : State) : (s.clearSticky).status = s.status &&& ~~~maskSticky := rfl
@[simp] theorem clearSticky_rsp (s : State) : (s.clearSticky).rsp = s.rsp := rfl
@[simp] theorem clearSticky_tr (s : State) : (s.clearSticky).tr = s.tr := rfl
@[simp] theorem clearSticky_rs (s : State) : (s.clearSticky).rs = s.rs := rfl
@[simp] theorem clearSticky_packet (s : State) : (s.clearSticky).packet = s.packet := rfl
@[simp] theorem clearSticky_input (s : State) : (s.clearSticky).input = s.input := rfl
@[simp] theorem clearSticky_far (s : State) : (s.clearSticky).far = s.far := rfl

@[simp] theorem warn_fb (s : State) : (s.warn).fb = s.fb := rfl
@[simp] theorem warn_lines (s : State) : (s.warn).lines = s.lines := rfl
@[simp] theorem warn_status (s : State) : (s.warn).status = s.status ||| maskWarn := rfl
@[simp] theorem warn_rsp (s : State) : (s.warn).rsp = s.rsp ||| maskWarn := rfl
@[simp] theorem warn_tr (s : State) : (s.warn).tr = s.tr := rfl
@[simp] theorem warn_rs (s : State) : (s.warn).rs = s.rs := rfl
@[simp] theorem warn_packet (s : State) : (s.warn).packet = s.packet := rfl
@[simp] theorem warn_input (s : State) : (s.warn).input = s.input := rfl
@[simp] theorem warn_far (s : State) : (s.warn).far = s.far := rfl

@[simp] theorem setFb_fb (v : Bytes16) (s : State) : (s.setFb v).fb = v := rfl
@[simp] theorem setFb_lines (v : Bytes16) (s : State) : (s.setFb v).lines = s.lines := rfl
@[simp] theorem setFb_status (v : Bytes16) (s : State) : (s.setFb v).status = s.status := rfl
@[simp] theorem setFb_rsp (v : Bytes16) (s : State) : (s.setFb v).rsp = s.rsp := rfl
@[simp] theorem setFb_tr (v : Bytes16) (s : State) : (s.setFb v).tr = s.tr := rfl
@[simp] theorem setFb_rs (v : Bytes16) (s : State) : (s.setFb v).rs = s.rs := rfl
@[simp] theorem setFb_packet (v : Bytes16) (s : State) : (s.setFb v).packet = s.packet := rfl
@[simp] theorem setFb_input (v : Bytes16) (s : State) : (s.setFb v).input = s.input := rfl
@[simp] theorem setFb_far (v : Bytes16) (s : State) : (s.setFb v).far = s.far := rfl

@[simp] theorem clearFb_fb (s : State) : (s.clearFb).fb = Vector.replicate 16 0x00#8 := rfl
@[simp] theorem clearFb_lines (s : State) : (s.clearFb).lines = s.lines := rfl
@[simp] theorem clearFb_status (s : State) : (s.clearFb).status = s.status := rfl
@[simp] theorem clearFb_rsp (s : State) : (s.clearFb).rsp = s.rsp := rfl
@[simp] theorem clearFb_tr (s : State) : (s.clearFb).tr = s.tr := rfl
@[simp] theorem clearFb_rs (s : State) : (s.clearFb).rs = s.rs := rfl
@[simp] theorem clearFb_packet (s : State) : (s.clearFb).packet = s.packet := rfl
@[simp] theorem clearFb_input (s : State) : (s.clearFb).input = s.input := rfl
@[simp] theorem clearFb_far (s : State) : (s.clearFb).far = s.far := rfl

@[simp] theorem writePixel_fb (s : State) (r c : Nat) (v : Bool) : (s.writePixel r c v).fb = s.fb.setIfInBounds c (setBit (s.column c) r v) := rfl
@[simp] theorem writePixel_lines (s : State) (r c : Nat) (v : Bool) : (s.writePixel r c v).lines = s.lines := rfl
@[simp] theorem writePixel_status (s : State) (r c : Nat) (v : Bool) : (s.writePixel r c v).status = s.status := rfl
@[simp] theorem writePixel_rsp (s : State) (r c : Nat) (v : Bool) : (s.writePixel r c v).rsp = s.rsp := rfl
@[simp] theorem writePixel_tr (s : State) (r c : Nat) (v : Bool) : (s.writePixel r c v).tr = s.tr := rfl
@[simp] theorem writePixel_rs (s : State) (r c : Nat) (v : Bool) : (s.writePixel r c v).rs = s.rs := rfl
@[simp] theorem writePixel_packet (s : State) (r c : Nat) (v : Bool) : (s.writePixel r c v).packet = s.packet := rfl
@[simp] theorem writePixel_input (s : State) (r c : Nat) (v : Bool) : (s.writePixel r c v).input = s.input := rfl
@[simp] theorem writePixel_far (s : State) (r c : Nat) (v : Bool) : (s.writePixel r c v).far = s.far := rfl

@[simp] theorem emit_fb (ws : List PinWrite) (s : State) : (emit ws s).fb = s.fb := rfl
@[simp] theorem emit_lines (ws : List PinWrite) (s : State) : (emit ws s).lines = s.lines.writeAll ws := rfl
@[simp] theorem emit_status (ws : List PinWrite) (s : State) : (emit ws s).status = s.status := rfl
@[simp] theorem emit_rsp (ws : List PinWrite) (s : State) : (emit ws s).rsp = s.rsp := rfl
@[simp] theorem emit_tr (ws : List PinWrite) (s : State) : (emit ws s).tr = s.tr ++ ws := rfl
@[simp] theorem emit_rs (ws : List PinWrite) (s : State) : (emit ws s).rs = s.rs := rfl
@[simp] theorem emit_packet (ws : List PinWrite) (s : State) : (emit ws s).packet = s.packet := rfl
@[simp] theorem emit_input (ws : List PinWrite) (s : State) : (emit ws s).input = s.input := rfl
@[simp] theorem emit_far (ws : List PinWrite) (s : State) : (emit ws s).far = s.far.steps ws := rfl

@[simp] theorem respond_fb (s : State) : (respond s).fb = s.fb := rfl
@[simp] theorem respond_lines (s : State) : (respond s).lines = s.lines := rfl
@[simp] theorem respond_status (s : State) : (respond s).status = s.status := rfl
@[simp] theorem respond_rsp (s : State) : (respond s).rsp = s.rsp := rfl
@[simp] theorem respond_tr (s : State) : (respond s).tr = s.tr := rfl
@[simp] theorem respond_rs (s : State) : (respond s).rs = s.rs ++ [s.rsp] := rfl
@[simp] theorem respond_packet (s : State) : (respond s).packet = s.packet := rfl
@[simp] theorem respond_input (s : State) : (respond s).input = s.input := rfl
@[simp] theorem respond_far (s : State) : (respond s).far = s.far := rfl

@[simp] theorem refresh_fb (s : State) : (refresh s).fb = s.fb := by rw [refresh, emit_fb]
@[simp] theorem refresh_lines (s : State) : (refresh s).lines = s.lines.writeAll (write3 0x00#8 s.fb.toList) := by rw [refresh, emit_lines]
@[simp] theorem refresh_status (s : State) : (refresh s).status = s.status := by rw [refresh, emit_status]
@[simp] theorem refresh_rsp (s : State) : (refresh s).rsp = s.rsp := by rw [refresh, emit_rsp]
@[simp] theorem refresh_tr (s : State) : (refresh s).tr = s.tr ++ (write3 0x00#8 s.fb.toList) := by rw [refresh, emit_tr]
@[simp] theorem refresh_rs (s : State) : (refresh s).rs = s.rs := by rw [refresh, emit_rs]
@[simp] theorem refresh_packet (s : State) : (refresh s).packet = s.packet := by rw [refresh, emit_packet]
@[simp] theorem refresh_input (s : State) : (refresh s).input = s.input := by rw [refresh, emit_input]
@[simp] theorem refresh_far (s : State) : (refresh s).far = s.far.steps (write3 0x00#8 s.fb.toList) := by rw [refresh, emit_far]

@[simp] theorem powerOn_fb (s : State) : (powerOn s).fb = s.fb := by rw [powerOn, emit_fb]
@[simp] theorem powerOn_lines (s : State) : (powerOn s).lines = s.lines.writeAll (framesWrites powerOnFrames) := by rw [powerOn, emit_lines]
@[simp] theorem powerOn_status (s : State) : (powerOn s).status = s.status := by rw [powerOn, emit_status]
@[simp] theorem powerOn_rsp (s : State) : (powerOn s).rsp = s.rsp := by rw [powerOn, emit_rsp]
@[simp] theorem powerOn_tr (s : State) : (powerOn s).tr = s.tr ++ (framesWrites powerOnFrames) := by rw [powerOn, emit_tr]
@[simp] theorem powerOn_rs (s : State) : (powerOn s).rs = s.rs := by rw [powerOn, emit_rs]
@[simp] theorem powerOn_packet (s : State) : (powerOn s).packet = s.packet := by rw [powerOn, emit_packet]
@[simp] theorem powerOn_input (s : State) : (powerOn s).input = s.input := by rw [powerOn, emit_input]
@[simp] theorem powerOn_far (s : State) : (powerOn s).far = s.far.steps (framesWrites powerOnFrames) := by rw [powerOn, emit_far]

@[simp] theorem setRsp_initd (b : Byte) (s : State) : (s.setRsp b).initd = s.initd := rfl
@[simp] theorem setFb_initd (v : Bytes16) (s : State) : (s.setFb v).initd = s.initd := rfl
@[simp] theorem emit_initd (ws : List PinWrite) (s : State) : (emit ws s).initd = s.initd := rfl
@[simp] theorem setRsp_pixel (b : Byte) (s : State) (r c : Nat) : (s.setRsp b).pixel r c = s.pixel r c := rfl
@[simp] theorem respond_pixel (s : State) (r c : Nat) : (respond s).pixel r c = s.pixel r c := rfl
@[simp] theorem emit_pixel (ws : List PinWrite) (s : State) (r c : Nat) : (emit ws s).pixel r c = s.pixel r c := rfl
@[simp] theorem refresh_pixel (s : State) (r c : Nat) : (refresh s).pixel r c = s.pixel r c := by rw [refresh, emit_pixel]

end Sys2Proof.Machine
end

