-- ==== Sys2Proof/Laws/Pixels.lean ====
section
/-! SUPPORT. Bits of bytes, pixels of the frame buffer, and what `fbSet` and `plot` do to them. -/

namespace Sys2Proof.Machine

theorem getLsbD_setBit (b : Byte) (i j : Nat) (v : Bool) (hi : i < 8) (hj : j < 8) :
    (setBit b i v).getLsbD j = if j = i then v else b.getLsbD j := by
  have h : ∀ (b : Byte) (i j : Fin 8) (v : Bool), (setBit b i v).getLsbD j = if j = i then v else b.getLsbD j := by
    intro b i j v
    unfold setBit
    fin_cases i <;> fin_cases j <;> cases v <;> simp
  simpa [Fin.ext_iff] using h b ⟨i, hi⟩ ⟨j, hj⟩ v

@[simp] theorem getLsbD_byteOfRows (f : Nat → Bool) (r : Nat) (hr : r < 8) : (byteOfRows f).getLsbD r = f r := by
  simp [byteOfRows, hr]

theorem byteAt_eq_getElem (v : Bytes16) (k : Nat) (hk : k < 16) : byteAt v k = v[k] := by
  simp [byteAt, Vector.getD, hk]

@[simp] theorem byteAt_ofFn (f : Fin 16 → Byte) (k : Nat) (hk : k < 16) : byteAt (Vector.ofFn f) k = f ⟨k, hk⟩ := by
  simp [byteAt_eq_getElem, hk]

@[simp] theorem byteAt_replicate (b : Byte) (k : Nat) (hk : k < 16) : byteAt (Vector.replicate 16 b) k = b := by
  simp [byteAt_eq_getElem, hk]

theorem byteAt_setIfInBounds (v : Bytes16) (i k : Nat) (b : Byte) (hk : k < 16) :
    byteAt (v.setIfInBounds i b) k = if i = k then b else byteAt v k := by
  simp [byteAt_eq_getElem, hk, Vector.getElem_setIfInBounds]

/-- Two frame buffers with the same 128 pixels are the same. -/
theorem bytes16_ext_of_bits (v w : Bytes16)
    (h : ∀ c < 16, ∀ r < 8, (byteAt v c).getLsbD r = (byteAt w c).getLsbD r) : v = w := by
  apply Vector.ext
  intro c hc
  rw [← byteAt_eq_getElem v c hc, ← byteAt_eq_getElem w c hc]
  exact BitVec.eq_of_getLsbD_eq fun r hr => h c hc r hr

/-- A pixel write sets that pixel and leaves every other one (R7, R11). -/
theorem pixel_writePixel (s : State) (r c r' c' : Nat) (v : Bool) (hr : r < 8) (hr' : r' < 8) (hc' : c' < 16) :
    (s.writePixel r c v).pixel r' c' = if r' = r ∧ c' = c then v else s.pixel r' c' := by
  unfold State.pixel State.column
  rw [writePixel_fb, byteAt_setIfInBounds _ _ _ _ hc']
  by_cases hc : c = c'
  · subst hc
    simp [getLsbD_setBit _ _ _ _ hr hr', State.column]
  · have : c' ≠ c := fun h => hc h.symm
    simp [hc, this]

theorem inRange_iff (row col : Int) : inRange row col = true ↔ 0 ≤ row ∧ row ≤ 7 ∧ 0 ≤ col ∧ col ≤ 15 := by
  simp [inRange]

theorem mem_intRange (a b i : Int) : i ∈ intRange a b ↔ a ≤ i ∧ i ≤ b := by
  simp only [intRange, List.mem_map, List.mem_range]
  constructor
  · rintro ⟨k, hk, rfl⟩
    omega
  · intro h
    exact ⟨(i - a).toNat, by omega, by omega⟩

theorem mem_rectPixels (x y w h : Int) (r c : Int) :
    (r, c) ∈ rectPixels x y w h ↔ (x ≤ c ∧ c < x + w ∧ 0 ≤ c ∧ c < 16) ∧ (y ≤ r ∧ r < y + h ∧ 0 ≤ r ∧ r < 8) := by
  simp only [rectPixels, List.mem_flatMap, List.mem_map, mem_intRange, Prod.mk.injEq]
  constructor
  · rintro ⟨c', hc, r', hr, rfl, rfl⟩
    omega
  · intro h
    exact ⟨c, by omega, r, by omega, rfl, rfl⟩

theorem mem_rowSweep (r c0 c1 : Int) (r' c : Int) :
    (r', c) ∈ rowSweep r c0 c1 ↔ r' = r ∧ min c0 c1 ≤ c ∧ c ≤ max c0 c1 ∧ 0 ≤ c ∧ c ≤ 15 := by
  simp only [rowSweep, List.mem_map, mem_intRange, Prod.mk.injEq]
  constructor
  · rintro ⟨c', hc, rfl, rfl⟩
    omega
  · intro h
    exact ⟨c, by omega, by omega, rfl⟩

theorem mem_colSweep (c r0 r1 : Int) (r c' : Int) :
    (r, c') ∈ colSweep c r0 r1 ↔ c' = c ∧ min r0 r1 ≤ r ∧ r ≤ max r0 r1 ∧ 0 ≤ r ∧ r ≤ 7 := by
  simp only [colSweep, List.mem_map, mem_intRange, Prod.mk.injEq]
  constructor
  · rintro ⟨r', hr, rfl, rfl⟩
    omega
  · intro h
    exact ⟨r, by omega, rfl, by omega⟩

/-- What a state keeps through a frame-buffer write: everything but `fb`, `status` and `rsp`. -/
structure KeepsWire (s t : State) : Prop where
  lines : t.lines = s.lines
  tr : t.tr = s.tr
  rs : t.rs = s.rs
  packet : t.packet = s.packet
  input : t.input = s.input
  far : t.far = s.far

theorem KeepsWire.refl (s : State) : KeepsWire s s := ⟨rfl, rfl, rfl, rfl, rfl, rfl⟩

theorem KeepsWire.trans {s t u : State} (h : KeepsWire s t) (g : KeepsWire t u) : KeepsWire s u :=
  ⟨g.lines.trans h.lines, g.tr.trans h.tr, g.rs.trans h.rs, g.packet.trans h.packet, g.input.trans h.input,
    g.far.trans h.far⟩

/-- Everything `fb_set` can do (R75). -/
theorem fbSet_cases (row col : Int) (v : Bool) (s : State) :
    (inRange row col = true ∧ fbSet row col v s = s.writePixel row.toNat col.toNat v) ∨
      (inRange row col = false ∧ fbSet row col v s = s.warn) := by
  cases h : inRange row col
  · exact .inr ⟨rfl, by simp [fbSet, h]⟩
  · exact .inl ⟨rfl, by simp [fbSet, h]⟩

theorem fbSet_keepsWire (row col : Int) (v : Bool) (s : State) : KeepsWire s (fbSet row col v s) := by
  obtain ⟨-, h⟩ | ⟨-, h⟩ := fbSet_cases row col v s <;> rw [h] <;> exact ⟨rfl, rfl, rfl, rfl, rfl, rfl⟩

theorem plot_keepsWire (ps : List (Int × Int)) (v : Bool) (s : State) : KeepsWire s (plot ps v s) := by
  induction ps generalizing s with
  | nil => exact KeepsWire.refl s
  | cons p ps ih => exact (fbSet_keepsWire p.1 p.2 v s).trans (ih _)

/-- The pixel `(r, c)` after `fb_set` (R75). -/
theorem pixel_fbSet (row col : Int) (v : Bool) (s : State) (r c : Nat) (hr : r < 8) (hc : c < 16) :
    (fbSet row col v s).pixel r c = if (r : Int) = row ∧ (c : Int) = col then v else s.pixel r c := by
  obtain ⟨hin, h⟩ | ⟨hin, h⟩ := fbSet_cases row col v s
  · rw [inRange_iff] at hin
    rw [h, pixel_writePixel _ _ _ _ _ _ (by omega) hr hc]
    have e : (r = row.toNat ∧ c = col.toNat) ↔ ((r : Int) = row ∧ (c : Int) = col) := by omega
    simp only [e]
  · have hn : ¬((r : Int) = row ∧ (c : Int) = col) := by
      rintro ⟨rfl, rfl⟩
      have : inRange r c = true := by rw [inRange_iff]; omega
      rw [this] at hin
      cases hin
    rw [h, if_neg hn]
    rfl

/-- The pixel `(r, c)` after a list of `fb_set`: written if it is in the list, else as before (R82, R84). -/
theorem pixel_plot (ps : List (Int × Int)) (v : Bool) (s : State) (r c : Nat) (hr : r < 8) (hc : c < 16) :
    (plot ps v s).pixel r c = if ((r : Int), (c : Int)) ∈ ps then v else s.pixel r c := by
  induction ps generalizing s with
  | nil => simp [plot]
  | cons p ps ih =>
    change (plot ps v (fbSet p.1 p.2 v s)).pixel r c = _
    rw [ih, pixel_fbSet _ _ _ _ _ _ hr hc]
    by_cases hmem : ((r : Int), (c : Int)) ∈ ps
    · simp [hmem]
    · have e : ((r : Int), (c : Int)) ∈ p :: ps ↔ (r : Int) = p.1 ∧ (c : Int) = p.2 := by
        simp [hmem, Prod.ext_iff]
      simp only [hmem, e, if_false]

/-- `STATUS` and the response after a list of `fb_set`: the warning once if any pixel is outside the matrix (R151). -/
theorem flags_plot (ps : List (Int × Int)) (v : Bool) (s : State) :
    (plot ps v s).status = (if ps.all (fun p => inRange p.1 p.2) then s.status else s.status ||| maskWarn) ∧
      (plot ps v s).rsp = (if ps.all (fun p => inRange p.1 p.2) then s.rsp else s.rsp ||| maskWarn) := by
  induction ps generalizing s with
  | nil => simp [plot]
  | cons p ps ih =>
    have e : plot (p :: ps) v s = plot ps v (fbSet p.1 p.2 v s) := rfl
    rw [e, (ih _).1, (ih _).2]
    obtain ⟨hin, h⟩ | ⟨hin, h⟩ := fbSet_cases p.1 p.2 v s
    · simp only [h, hin, List.all_cons, Bool.true_and, writePixel_status, writePixel_rsp, and_self]
    · simp only [h, hin, List.all_cons, Bool.false_and, warn_status, warn_rsp]
      by_cases ha : (ps.all fun p => inRange p.1 p.2) = true <;> simp [ha, BitVec.or_assoc]

/-- RECT's clipped pixels are all inside the matrix, so RECT never warns (R82, R151). -/
theorem rectPixels_inRange (x y w h : Int) : (rectPixels x y w h).all (fun p => inRange p.1 p.2) = true := by
  rw [List.all_eq_true]
  rintro ⟨r, c⟩ hm
  rw [mem_rectPixels] at hm
  simp only [inRange_iff]
  omega

/-- An image payload read back pixel by pixel (R73, R74). -/
theorem pixel_unpackImage (p : Bytes16) (s : State) (r c : Nat) (hr : r < 8) (hc : c < 16) :
    (s.setFb (unpackImage p)).pixel r c = imageBit p r c := by
  rw [State.pixel, State.column, setFb_fb, unpackImage, byteAt_ofFn _ c hc, getLsbD_byteOfRows _ r hr]

end Sys2Proof.Machine
end

