-- ==== Sys2Proof/Laws/Wire.lean ====
section
/-! SUPPORT. Counts and line levels of the pin-write lists (42_transport_ops.md R91 to R96, R101). -/

namespace Sys2Proof.Machine

@[simp] theorem writeAll_nil (l : Lines) : l.writeAll [] = l := rfl

theorem writeAll_append (l : Lines) (xs ys : List PinWrite) :
    l.writeAll (xs ++ ys) = (l.writeAll xs).writeAll ys := by
  simp [Lines.writeAll]

@[simp] theorem length_byteWrites (v : Byte) : (byteWrites v).length = 24 := rfl

@[simp] theorem length_frameWrites (bs : List Byte) : (frameWrites bs).length = 8 + 24 * bs.length := by
  have h : (bs.flatMap byteWrites).length = 24 * bs.length := by
    induction bs with
    | nil => rfl
    | cons b bs ih => rw [List.flatMap_cons, List.length_append, ih, length_byteWrites, List.length_cons]; omega
  simp only [frameWrites, List.length_append, h]
  simp only [startWrites, endWrites, List.length_cons, List.length_nil]
  omega

theorem framesWrites_cons (bs : List Byte) (fs : List (List Byte)) :
    framesWrites (bs :: fs) = frameWrites bs ++ framesWrites fs := rfl

@[simp] theorem framesWrites_nil : framesWrites [] = [] := rfl

/-- The three-frame write, frame by frame (R101). -/
theorem write3_eq (addr : Byte) (data : List Byte) :
    write3 addr data =
      frameWrites [opAutoIncrement] ++ (frameWrites ((opStartAddress + addr) :: data) ++ frameWrites [opDisplayOn]) := by
  simp only [write3, write3Frames, framesWrites_cons, framesWrites_nil, List.append_nil]

/-- Power-on, frame by frame (R104). -/
theorem powerOn_eq :
    framesWrites powerOnFrames = frameWrites [opDisplayOn] ++ write3 0x00#8 (List.replicate 16 0x00#8) := by
  rw [powerOnFrames, framesWrites_cons, write3]

/-- `96 + 24 * n` pin writes (R101). -/
theorem length_write3 (addr : Byte) (data : List Byte) : (write3 addr data).length = 96 + 24 * data.length := by
  simp only [write3, write3Frames, framesWrites_cons, framesWrites_nil, List.length_append, length_frameWrites,
    List.length_cons, List.length_nil]
  omega

/-- Power-on is 512 pin writes (R104). -/
theorem length_powerOn : (framesWrites powerOnFrames).length = 512 := by
  have h := length_write3 0x00#8 (List.replicate 16 0x00#8)
  rw [powerOnFrames, framesWrites_cons, List.length_append, length_frameWrites]
  rw [write3] at h
  rw [h]
  rfl

/-- The end condition leaves both lines high from any levels (R92). -/
theorem writeAll_endWrites (l : Lines) : l.writeAll endWrites = Lines.high := rfl

/-- A frame leaves both lines high (R95). -/
theorem writeAll_frameWrites (l : Lines) (bs : List Byte) : l.writeAll (frameWrites bs) = Lines.high := by
  rw [frameWrites, writeAll_append, writeAll_endWrites]

/-- Whole frames started from idle end at idle (R105). -/
theorem writeAll_framesWrites (fs : List (List Byte)) : Lines.high.writeAll (framesWrites fs) = Lines.high := by
  induction fs with
  | nil => rfl
  | cons bs fs ih => rw [framesWrites_cons, writeAll_append, writeAll_frameWrites, ih]

theorem writeAll_write3 (addr : Byte) (data : List Byte) : Lines.high.writeAll (write3 addr data) = Lines.high :=
  writeAll_framesWrites _

/-! ### The far end -/

/-- The eight wire bits of a byte, put together again, are the byte (R94, R111). -/
theorem byteOfWireBits_wireBits (v : Byte) : byteOfWireBits (wireBits v) = v := by
  revert v
  decide

theorem steps_append (f : FarEnd) (xs ys : List PinWrite) : f.steps (xs ++ ys) = (f.steps xs).steps ys := by
  simp [FarEnd.steps]

@[simp] theorem steps_nil (f : FarEnd) : f.steps [] = f := rfl

theorem steps_cons (f : FarEnd) (w : PinWrite) (ws : List PinWrite) : f.steps (w :: ws) = (f.step w).steps ws := rfl

/-- The far end with its parts written out. -/
def farAt (clk dio : Level) (p : RxPhase) (frames : List (List Byte)) (k : Sink) : FarEnd :=
  { rx := { lines := { clk := clk, dio := dio }, phase := p, frames := frames }, sink := k }

theorem step_farAt (clk dio : Level) (p : RxPhase) (fr : List (List Byte)) (k : Sink) (w : PinWrite) :
    (farAt clk dio p fr k).step w =
      { rx := Receiver.step { lines := { clk := clk, dio := dio }, phase := p, frames := fr } w
        sink := k.onEvent (Receiver.event { lines := { clk := clk, dio := dio }, phase := p, frames := fr } w) } := rfl

/-- A start condition from idle, seen by a receiver between frames or lost: a fresh frame (R91, R111, R172). -/
theorem steps_start (p : RxPhase) (hp : NoFrameOpen p) (fr : List (List Byte)) (k : Sink) :
    (farAt true true p fr k).steps startWrites = farAt true false (.inFrame [] []) fr k := by
  rcases hp with rfl | rfl <;>
    simp [startWrites, steps_cons, FarEnd.step, farAt, clockTo, dataTo, Receiver.step, Receiver.event, Receiver.nextPhase,
      Lines.write, Lines.starts, Lines.stops, Lines.rises, LinkEvent.completed, RxPhase.sample, Sink.onEvent]

/-- One bit inside a frame, before the eighth (R93, R111). -/
theorem steps_bit (d b : Bool) (sh : List Bool) (cur : List Byte) (hs : sh.length ≠ 7) (fr : List (List Byte)) (k : Sink) :
    (farAt true d (.inFrame sh cur) fr k).steps (bitWrites b) = farAt true b (.inFrame (sh ++ [b]) cur) fr k := by
  simp [bitWrites, steps_cons, FarEnd.step, farAt, clockTo, dataTo, Receiver.step, Receiver.event, Receiver.nextPhase,
    Lines.write, Lines.starts, Lines.stops, Lines.rises, LinkEvent.completed, RxPhase.sample, Sink.onEvent, hs]

/-- The eighth bit completes the byte (R111). -/
theorem steps_lastBit (d b : Bool) (sh : List Bool) (cur : List Byte) (hs : sh.length = 7) (fr : List (List Byte))
    (k : Sink) :
    (farAt true d (.inFrame sh cur) fr k).steps (bitWrites b) =
      farAt true b (.inFrame [] (cur ++ [byteOfWireBits (sh ++ [b])])) fr k := by
  simp [bitWrites, steps_cons, FarEnd.step, farAt, clockTo, dataTo, Receiver.step, Receiver.event, Receiver.nextPhase,
    Lines.write, Lines.starts, Lines.stops, Lines.rises, LinkEvent.completed, RxPhase.sample, Sink.onEvent, hs]

/-- One byte inside a frame (R94, R111). -/
theorem steps_byte (d : Bool) (v : Byte) (cur : List Byte) (fr : List (List Byte)) (k : Sink) :
    (farAt true d (.inFrame [] cur) fr k).steps (byteWrites v) =
      farAt true (v.getLsbD 0) (.inFrame [] (cur ++ [v])) fr k := by
  have h := byteOfWireBits_wireBits v
  simp only [wireBits] at h
  simp only [byteWrites, wireBits, List.flatMap_cons, List.flatMap_nil, List.append_nil, steps_append]
  rw [steps_bit _ _ _ _ (by simp), steps_bit _ _ _ _ (by simp), steps_bit _ _ _ _ (by simp), steps_bit _ _ _ _ (by simp),
    steps_bit _ _ _ _ (by simp), steps_bit _ _ _ _ (by simp), steps_bit _ _ _ _ (by simp), steps_lastBit _ _ _ _ (by simp)]
  simp only [List.nil_append, List.cons_append]
  rw [h]

/-- The bytes of a frame collect in `cur` (R95, R111). -/
theorem steps_bytes (bs : List Byte) (d : Bool) (cur : List Byte) (fr : List (List Byte)) (k : Sink) :
    ∃ d', (farAt true d (.inFrame [] cur) fr k).steps (bs.flatMap byteWrites) =
      farAt true d' (.inFrame [] (cur ++ bs)) fr k := by
  induction bs generalizing d cur with
  | nil => exact ⟨d, by simp⟩
  | cons b bs ih =>
    obtain ⟨d', h⟩ := ih (b.getLsbD 0) (cur ++ [b])
    refine ⟨d', ?_⟩
    rw [List.flatMap_cons, steps_append, steps_byte, h, List.append_assoc]
    rfl

/-- The end condition: the extra bit is dropped and the frame is complete (R92, R111, R113). -/
theorem steps_end (d : Bool) (cur : List Byte) (fr : List (List Byte)) (k : Sink) :
    (farAt true d (.inFrame [] cur) fr k).steps endWrites =
      farAt true true .outside (fr ++ [cur]) (k.takeFrame cur) := by
  simp [endWrites, steps_cons, FarEnd.step, farAt, clockTo, dataTo, Receiver.step, Receiver.event, Receiver.nextPhase,
    Lines.write, Lines.starts, Lines.stops, Lines.rises, LinkEvent.completed, RxPhase.sample, Sink.onEvent]

/-- A whole frame from idle: the receiver appends exactly its bytes, stands outside a frame at idle, and the sink takes the
frame (R112). -/
theorem steps_frame (bs : List Byte) (p : RxPhase) (hp : NoFrameOpen p) (fr : List (List Byte)) (k : Sink) :
    (farAt true true p fr k).steps (frameWrites bs) = farAt true true .outside (fr ++ [bs]) (k.takeFrame bs) := by
  obtain ⟨d, h⟩ := steps_bytes bs false [] fr k
  rw [frameWrites, steps_append, steps_append, steps_start p hp, h, steps_end, List.nil_append]

/-- Whole frames from idle, one after the other: the receiver appends them in order and the sink takes each. -/
theorem steps_frames (fs : List (List Byte)) (p : RxPhase) (hp : NoFrameOpen p) (fr : List (List Byte)) (k : Sink) :
    ∃ p', NoFrameOpen p' ∧ (fs ≠ [] → p' = .outside) ∧
      (farAt true true p fr k).steps (framesWrites fs) = farAt true true p' (fr ++ fs) (fs.foldl Sink.takeFrame k) := by
  induction fs generalizing p fr k with
  | nil => exact ⟨p, hp, fun h => absurd rfl h, by simp⟩
  | cons bs fs ih =>
    obtain ⟨p', hp', ho, h⟩ := ih .outside (.inl rfl) (fr ++ [bs]) (k.takeFrame bs)
    refine ⟨p', hp', fun _ => ?_, ?_⟩
    · cases fs with
      | nil =>
        have := congrArg (fun f => f.rx.phase) h
        simpa [farAt] using this.symm
      | cons c cs => exact ho (by simp)
    · rw [framesWrites_cons, steps_append, steps_frame bs p hp, h, List.append_assoc]
      rfl

/-- Two writes of lines that are high already do nothing at the far end (R120). -/
theorem steps_bothHigh (p : RxPhase) (fr : List (List Byte)) (k : Sink) :
    (farAt true true p fr k).steps [clockTo true, dataTo true] = farAt true true p fr k := by
  simp [steps_cons, FarEnd.step, farAt, clockTo, dataTo, Receiver.step, Receiver.event, Receiver.nextPhase,
    Lines.write, Lines.starts, Lines.stops, Lines.rises, LinkEvent.completed, Sink.onEvent]

end Sys2Proof.Machine
end

