-- ==== Sys2Proof/Laws/Display.lean ====
section
/-! SUPPORT. The display memory and the reference sink (20_memory.md R36 to R39). -/

namespace Sys2Proof.Machine

/-- Reading after a write: the byte written at its address, every other address as before. -/
theorem read_write (m : Memory) (a b : Nat) (v : Byte) (h : m.Pairwise (fun x y => x.1 < y.1)) :
    Memory.read (Memory.write m a v) b = if b = a then some v else Memory.read m b := by
  induction m with
  | nil =>
    by_cases hb : b = a
    · simp [Memory.write, Memory.read, hb]
    · simp [Memory.write, Memory.read, hb, Ne.symm hb]
  | cons c m ih =>
    obtain ⟨k, w⟩ := c
    rw [List.pairwise_cons] at h
    unfold Memory.write
    split
    · by_cases hb : b = a
      · simp [Memory.read, hb]
      · simp [Memory.read, hb, Ne.symm hb]
    · split
      · subst a
        by_cases hb : b = k
        · simp [Memory.read, hb]
        · simp [Memory.read, hb, Ne.symm hb]
      · by_cases hk : k = b
        · subst hk
          have : k ≠ a := by omega
          simp [Memory.read, this]
        · simp [Memory.read, hk, ih h.2]

theorem mem_write (m : Memory) (a : Nat) (v : Byte) (c : Host.Cell) (h : c ∈ Memory.write m a v) : c = (a, v) ∨ c ∈ m := by
  induction m with
  | nil => simpa [Memory.write] using h
  | cons d m ih =>
    obtain ⟨k, w⟩ := d
    unfold Memory.write at h
    split at h
    · simpa using h
    · split at h
      · rcases List.mem_cons.mp h with h | h
        · exact .inl h
        · exact .inr (List.mem_cons_of_mem _ h)
      · rcases List.mem_cons.mp h with h | h
        · exact .inr (h ▸ List.mem_cons_self)
        · rcases ih h with h | h
          · exact .inl h
          · exact .inr (List.mem_cons_of_mem _ h)

/-- A write keeps the canonical form. -/
theorem write_wf (m : Memory) (a : Nat) (v : Byte) (ha : a < 16) (h : Memory.wf m) : Memory.wf (Memory.write m a v) := by
  refine ⟨?_, ?_⟩
  · have hp := h.1
    clear h
    induction m with
    | nil => simp [Memory.write]
    | cons c m ih =>
      obtain ⟨k, w⟩ := c
      rw [List.pairwise_cons] at hp
      unfold Memory.write
      split
      · rename_i hlt
        refine List.pairwise_cons.mpr ⟨?_, List.pairwise_cons.mpr hp⟩
        intro d hd
        rcases List.mem_cons.mp hd with rfl | hd
        · exact hlt
        · exact Nat.lt_trans hlt (hp.1 d hd)
      · split
        · rename_i heq
          exact List.pairwise_cons.mpr ⟨fun d hd => heq ▸ hp.1 d hd, hp.2⟩
        · rename_i hlt hne
          refine List.pairwise_cons.mpr ⟨?_, ih hp.2⟩
          intro d hd
          rcases mem_write m a v d hd with rfl | hd
          · show k < a
            omega
          · exact hp.1 d hd
  · intro c hc
    rcases mem_write m a v c hc with rfl | hc
    · exact ha
    · exact h.2 c hc

theorem wf_nil : Memory.wf [] := ⟨List.Pairwise.nil, by simp⟩

/-- What a run of stored bytes leaves alone in the sink, and the canonical form it keeps. -/
theorem stores_keep (data : List Byte) (k : Sink) (h : Memory.wf k.dm) :
    Memory.wf (data.foldl Sink.store k).dm ∧ (data.foldl Sink.store k).ai = k.ai ∧
      (data.foldl Sink.store k).dispOn = k.dispOn ∧ (data.foldl Sink.store k).stopped = k.stopped ∧
      (data.foldl Sink.store k).generation = k.generation := by
  induction data generalizing k with
  | nil => exact ⟨h, rfl, rfl, rfl, rfl⟩
  | cons b data ih => exact ih (k.store b) (write_wf _ _ _ (by omega) h)

/-- The pointer advances by one per stored byte, modulo 16 (R37). -/
theorem stores_pointer (data : List Byte) (k : Sink) :
    (data.foldl Sink.store k).pointer = k.pointer + BitVec.ofNat 4 data.length := by
  induction data generalizing k with
  | nil => simp
  | cons b data ih =>
    have hptr : (k.store b).pointer = k.pointer + 1 := rfl
    rw [List.foldl_cons, ih, hptr, List.length_cons]
    apply BitVec.eq_of_toNat_eq
    have h1 : (1 : BitVec 4).toNat = 1 := rfl
    simp only [BitVec.toNat_add, BitVec.toNat_ofNat, h1]
    omega

/-- The display memory after a run of stored bytes that stays inside the sixteen addresses: byte `i` at the pointer plus
`i`, every other address as before (R33, R37). -/
theorem read_stores (data : List Byte) (k : Sink) (h : Memory.wf k.dm) (hfit : k.pointer.toNat + data.length ≤ 16) (a : Nat) :
    Memory.read (data.foldl Sink.store k).dm a =
      if k.pointer.toNat ≤ a ∧ a < k.pointer.toNat + data.length then data[a - k.pointer.toNat]? else Memory.read k.dm a := by
  induction data generalizing k with
  | nil =>
    have : ¬(k.pointer.toNat ≤ a ∧ a < k.pointer.toNat + ([] : List Byte).length) := by simp
    rw [if_neg this]
    rfl
  | cons b data ih =>
    have hdm : (k.store b).dm = Memory.write k.dm k.pointer.toNat b := rfl
    have hptr : (k.store b).pointer = k.pointer + 1 := rfl
    rw [List.foldl_cons]
    rw [List.length_cons] at hfit ⊢
    cases data with
    | nil =>
      rw [List.foldl_nil, hdm, read_write _ _ _ _ h.1]
      by_cases ha : a = k.pointer.toNat
      · subst ha
        simp
      · have : ¬(k.pointer.toNat ≤ a ∧ a < k.pointer.toNat + (([] : List Byte).length + 1)) := by
          simp only [List.length_nil]
          omega
        rw [if_neg ha, if_neg this]
    | cons c data =>
      rw [List.length_cons] at hfit
      have hp : (k.pointer + 1).toNat = k.pointer.toNat + 1 := by
        rw [BitVec.toNat_add]
        show (k.pointer.toNat + 1) % 16 = _
        omega
      rw [ih (k.store b) (write_wf _ _ _ (by omega) h) (by rw [hptr, hp, List.length_cons]; omega), hdm, hptr, hp,
        read_write _ _ _ _ h.1]
      by_cases ha : a = k.pointer.toNat
      · subst ha
        rw [if_neg (by omega), if_pos rfl, if_pos (by omega), Nat.sub_self]
        rfl
      · rw [if_neg ha]
        by_cases hin : k.pointer.toNat + 1 ≤ a ∧ a < k.pointer.toNat + 1 + (c :: data).length
        · rw [if_pos hin, if_pos (by rw [List.length_cons] at *; omega)]
          have : a - k.pointer.toNat = (a - (k.pointer.toNat + 1)) + 1 := by omega
          rw [this, List.getElem?_cons_succ]
        · rw [if_neg hin, if_neg (by rw [List.length_cons] at *; omega)]

/-- The mode frame selects auto-increment (R37, first arm). -/
theorem takeFrame_autoIncrement (k : Sink) (h : k.stopped = false) :
    k.takeFrame [opAutoIncrement] = { k with ai := .held true } := by
  simp [Sink.takeFrame, h]

/-- The display-control frame turns the display on (R37, second arm). -/
theorem takeFrame_displayOn (k : Sink) (h : k.stopped = false) :
    k.takeFrame [opDisplayOn] = { k with dispOn := .held true } := by
  have : opDisplayOn ≠ opAutoIncrement := by decide
  simp [Sink.takeFrame, h, this]

/-- The address frame stores its data from its address (R37, third arm). -/
theorem takeFrame_address (k : Sink) (h : k.stopped = false) (hai : k.autoInc = true) (addr : Byte) (data : List Byte)
    (hfit : addr.toNat + data.length ≤ 16) (hn : data ≠ []) :
    k.takeFrame ((opStartAddress + addr) :: data) =
      data.foldl Sink.store { k with ap := .held (BitVec.ofNat 4 addr.toNat) } := by
  have hlt : addr.toNat ≤ 15 := by
    have := List.length_pos_of_ne_nil hn
    omega
  have hb : (opStartAddress + addr).toNat = 0xC0 + addr.toNat := by
    rw [BitVec.toNat_add]
    show (0xC0 + addr.toNat) % 256 = _
    omega
  have hc : 0xC0 ≤ (opStartAddress + addr).toNat ∧ (opStartAddress + addr).toNat ≤ 0xCF ∧ k.autoInc = true ∧
      (opStartAddress + addr).toNat - 0xC0 + data.length ≤ 16 := by
    rw [hb]
    exact ⟨by omega, by omega, hai, by omega⟩
  have hs : (opStartAddress + addr).toNat - 0xC0 = addr.toNat := by omega
  unfold Sink.takeFrame
  simp only [h, hn, and_false, if_false]
  rw [if_pos hc, hs]
  simp

/-- Everything the three-frame write does to a running sink (R37, R101): the data at its addresses, auto-increment
selected, the display on, the pointer after the last byte. -/
theorem write3_sink (k : Sink) (h : k.stopped = false) (hwf : Memory.wf k.dm) (addr : Byte) (data : List Byte)
    (hfit : addr.toNat + data.length ≤ 16) (hn : data ≠ []) :
    ∃ k', (write3Frames addr data).foldl Sink.takeFrame k = k' ∧ k'.stopped = false ∧ Memory.wf k'.dm ∧
      k'.ai = .held true ∧ k'.dispOn = .held true ∧ k'.generation = k.generation ∧
      k'.pointer.toNat = (addr.toNat + data.length) % 16 ∧
      ∀ a, Memory.read k'.dm a =
        if addr.toNat ≤ a ∧ a < addr.toNat + data.length then data[a - addr.toNat]? else Memory.read k.dm a := by
  refine ⟨_, rfl, ?_⟩
  have hlt : addr.toNat ≤ 15 := by
    have := List.length_pos_of_ne_nil hn
    omega
  have e2 := takeFrame_address { k with ai := .held true } h rfl addr data hfit hn
  have keep := stores_keep data { k with ai := .held true, ap := .held (BitVec.ofNat 4 addr.toNat) } hwf
  have hptr : (BitVec.ofNat 4 addr.toNat).toNat = addr.toNat := by
    rw [BitVec.toNat_ofNat]
    omega
  have hread := read_stores data { k with ai := .held true, ap := .held (BitVec.ofNat 4 addr.toNat) } hwf
  simp only [Sink.pointer, hptr] at hread
  have hend := stores_pointer data { k with ai := .held true, ap := .held (BitVec.ofNat 4 addr.toNat) }
  have hendNat : (BitVec.ofNat 4 addr.toNat + BitVec.ofNat 4 data.length).toNat = (addr.toNat + data.length) % 16 := by
    rw [BitVec.toNat_add, hptr, BitVec.toNat_ofNat]
    omega
  simp only [write3Frames, List.foldl_cons, List.foldl_nil]
  rw [takeFrame_autoIncrement k h, e2, takeFrame_displayOn _ (keep.2.2.2.1.trans h)]
  exact ⟨keep.2.2.2.1.trans h, keep.1, keep.2.1, rfl, keep.2.2.2.2, (congrArg BitVec.toNat hend).trans hendNat, hread hfit⟩

end Sys2Proof.Machine
end

