-- ==== Sys2Proof/Laws/Commands.lean ====
section
/-! SUPPORT. What a gated and an ungated command can answer, what emitting whole frames from an idle link does, and how the
command port delivers a packet. -/

namespace Sys2Proof.Machine

/-- A command behind the gate runs when `INITD` is set (R57). -/
theorem gated_ready (body : State → State) (s : State) (h : s.initd = true) : gated body s = .next (respond (body s)) := by
  simp [gated, h]

/-- A command behind the gate is contained when `INITD` is clear (R153). -/
theorem gated_early (body : State → State) (s : State) (h : s.initd = false) : gated body s = .next (containNoInit s) := by
  simp [gated, h]

/-- Everything a gated command can answer. -/
theorem gated_cases (body : State → State) (s t : State) (h : gated body s = .next t) :
    (s.initd = true ∧ t = respond (body s)) ∨ (s.initd = false ∧ t = containNoInit s) := by
  cases hi : s.initd
  · rw [gated_early body s hi] at h
    exact .inr ⟨rfl, (Host.Outcome.next.inj h).symm⟩
  · rw [gated_ready body s hi] at h
    exact .inl ⟨rfl, (Host.Outcome.next.inj h).symm⟩

/-- Everything an ungated command can answer. -/
theorem ungated_cases (body : State → State) (s t : State) (h : ungated body s = .next t) : t = respond (body s) :=
  (Host.Outcome.next.inj h).symm

theorem emit_append (xs ys : List PinWrite) (s : State) : emit (xs ++ ys) s = emit ys (emit xs s) := by
  simp [emit, writeAll_append, steps_append]

theorem emit_nil (s : State) : emit [] s = s := by
  simp [emit]

theorem emit_pinWrites (ws : List PinWrite) (s : State) : PinWrites s (emit ws s) ws :=
  ⟨emit_lines ws s, emit_tr ws s, emit_far ws s⟩

/-- A refresh is exactly the three frames of R100, of the frame buffer as it stands. -/
theorem refresh_pinWrites (s : State) : PinWrites s (refresh s) (write3 0x00#8 s.fb.toList) := emit_pinWrites _ s

/-- Frame-buffer writes before the pin writes do not show on the wire (R40). -/
theorem KeepsWire.pinWrites {s u t : State} {ws : List PinWrite} (k : KeepsWire s u) (h : PinWrites u t ws) :
    PinWrites s t ws := by
  obtain ⟨hl, ht, hf⟩ := h
  exact ⟨by rw [hl, k.lines], by rw [ht, k.tr], by rw [hf, k.far]⟩

/-- Everything emitting whole frames does to an idle link (R105, R112). -/
theorem emit_frames (fs : List (List Byte)) (s : State) (h : LinkIdle s) :
    LinkIdle (emit (framesWrites fs) s) ∧
      (emit (framesWrites fs) s).far.rx.frames = s.far.rx.frames ++ fs ∧
      (emit (framesWrites fs) s).far.sink = fs.foldl Sink.takeFrame s.far.sink := by
  obtain ⟨hl, hs, hc⟩ := h
  have hf : s.far = farAt true true s.far.rx.phase s.far.rx.frames s.far.sink := by
    have : s.far.rx.lines = { clk := true, dio := true } := hs
    unfold farAt
    rw [← this]
  obtain ⟨p', hp', -, hstep⟩ := steps_frames fs s.far.rx.phase hc s.far.rx.frames s.far.sink
  rw [← hf] at hstep
  refine ⟨⟨?_, ?_, ?_⟩, ?_, ?_⟩
  · rw [emit_lines, hl, writeAll_framesWrites]
  all_goals rw [emit_far, hstep]
  · rfl
  · exact hp'
  · rfl
  · rfl

/-- The bytes of a packet, the last marked, are delivered as that packet, after those already received (R22). -/
theorem nextEvent_movesOfPacket (bs received : List Byte) (rest : List HostMove) (h : bs ≠ []) :
    nextEvent received (movesOfPacket bs ++ rest) = .packet (received ++ bs) rest := by
  induction bs generalizing received with
  | nil => exact absurd rfl h
  | cons b bs ih =>
    cases bs with
    | nil => rfl
    | cons c bs =>
      show nextEvent (received ++ [b]) (movesOfPacket (c :: bs) ++ rest) = _
      rw [ih (received ++ [b]) (by simp), List.append_assoc]
      rfl

/-- Unmarked bytes and waits only add their bytes to the part received (R22; log entry 22). -/
theorem nextEvent_unmarked (ms rest : List HostMove) (bs received : List Byte) (h : unmarkedBytes ms = some bs) :
    nextEvent received (ms ++ rest) = nextEvent (received ++ bs) rest := by
  induction ms generalizing bs received with
  | nil =>
    cases h
    rw [List.append_nil]
    rfl
  | cons m ms ih =>
    cases m with
    | byte b =>
      obtain ⟨cs, hc, rfl⟩ := Option.map_eq_some_iff.mp h
      show nextEvent (received ++ [b]) (ms ++ rest) = _
      rw [ih cs _ hc, List.append_assoc]
      rfl
    | wait => exact ih bs received h
    | lastByte b => cases h
    | lastByteThenReset b => cases h
    | rst => cases h

/-- Every list of moves is unmarked bytes and waits only, or has a first move that ends a packet or resets. -/
theorem moves_cases (ms : List HostMove) :
    (∃ bs, unmarkedBytes ms = some bs) ∨
      ∃ pre bs m rest, ms = pre ++ m :: rest ∧ unmarkedBytes pre = some bs ∧
        ((∃ b, m = .lastByte b) ∨ (∃ b, m = .lastByteThenReset b) ∨ m = .rst) := by
  induction ms with
  | nil => exact .inl ⟨[], rfl⟩
  | cons m ms ih =>
    cases m with
    | lastByte b => exact .inr ⟨[], [], .lastByte b, ms, rfl, rfl, .inl ⟨b, rfl⟩⟩
    | lastByteThenReset b => exact .inr ⟨[], [], .lastByteThenReset b, ms, rfl, rfl, .inr (.inl ⟨b, rfl⟩)⟩
    | rst => exact .inr ⟨[], [], .rst, ms, rfl, rfl, .inr (.inr rfl)⟩
    | byte b =>
      rcases ih with ⟨bs, h⟩ | ⟨pre, bs, m, rest, rfl, h, hm⟩
      · exact .inl ⟨b :: bs, by rw [unmarkedBytes, h]; rfl⟩
      · exact .inr ⟨.byte b :: pre, b :: bs, m, rest, rfl, by rw [unmarkedBytes, h]; rfl, hm⟩
    | wait =>
      rcases ih with ⟨bs, h⟩ | ⟨pre, bs, m, rest, rfl, h, hm⟩
      · exact .inl ⟨bs, h⟩
      · exact .inr ⟨.wait :: pre, bs, m, rest, rfl, h, hm⟩

theorem nextEvent_presents {s : State} {packet : List Byte} {rest : List HostMove} (h : Presents s packet rest) :
    nextEvent s.packet s.input = .packet packet rest := by
  obtain ⟨ms, bs, b, hi, hu, rfl⟩ := h
  rw [hi, nextEvent_unmarked ms _ bs _ hu]
  rfl

theorem nextEvent_cutsShort {s : State} {rest : List HostMove} (h : CutsShort s rest) :
    nextEvent s.packet s.input = .cut rest := by
  obtain ⟨ms, bs, b, hi, hu⟩ := h
  rw [hi, nextEvent_unmarked ms _ bs _ hu]
  rfl

theorem nextEvent_resetsIdle {s : State} {rest : List HostMove} (h : ResetsIdle s rest) :
    nextEvent s.packet s.input = .reset rest := by
  obtain ⟨ms, bs, hi, hu⟩ := h
  rw [hi, nextEvent_unmarked ms _ bs _ hu]
  rfl

theorem nextEvent_quiet {s : State} {bs : List Byte} (h : unmarkedBytes s.input = some bs) :
    nextEvent s.packet s.input = .quiet (s.packet ++ bs) := by
  rw [← List.append_nil s.input, nextEvent_unmarked _ _ bs _ h]
  rfl

/-- Everything the host's moves can amount to. -/
theorem port_cases (s : State) :
    (∃ packet rest, Presents s packet rest) ∨ (∃ rest, CutsShort s rest) ∨ (∃ rest, ResetsIdle s rest) ∨
      ∃ bs, unmarkedBytes s.input = some bs := by
  rcases moves_cases s.input with h | ⟨pre, bs, m, rest, hi, hu, ⟨b, rfl⟩ | ⟨b, rfl⟩ | rfl⟩
  · exact .inr (.inr (.inr h))
  · exact .inl ⟨_, rest, pre, bs, b, hi, hu, rfl⟩
  · exact .inr (.inl ⟨rest, pre, bs, b, hi, hu⟩)
  · exact .inr (.inr (.inl ⟨rest, pre, bs, hi, hu⟩))

/-- Everything a step can do: run a packet, reset, or keep the bytes received. -/
theorem step_cases (s t : State) (h : step s = .next t) :
    (∃ packet rest, Presents s packet rest ∧ runPacket packet { s with packet := [], input := rest } = .next t) ∨
      (∃ rest, CutsShort s rest ∧ t = busyReset { s with input := rest }) ∨
      (∃ rest, ResetsIdle s rest ∧ t = idleReset { s with input := rest }) ∨
      ∃ bs, unmarkedBytes s.input = some bs ∧ t = { s with packet := s.packet ++ bs, input := [] } := by
  unfold step at h
  rcases port_cases s with ⟨packet, rest, hp⟩ | ⟨rest, hc⟩ | ⟨rest, hr⟩ | ⟨bs, hq⟩
  · rw [nextEvent_presents hp] at h
    exact .inl ⟨packet, rest, hp, h⟩
  · rw [nextEvent_cutsShort hc] at h
    exact .inr (.inl ⟨rest, hc, (Host.Outcome.next.inj h).symm⟩)
  · rw [nextEvent_resetsIdle hr] at h
    exact .inr (.inr (.inl ⟨rest, hr, (Host.Outcome.next.inj h).symm⟩))
  · rw [nextEvent_quiet hq] at h
    exact .inr (.inr (.inr ⟨bs, hq, (Host.Outcome.next.inj h).symm⟩))

/-- A packet's bytes one after the other, without waits, are presented as that packet. -/
theorem presents_movesOfPacket (s : State) (bs : List Byte) (rest : List HostMove) (hne : bs ≠ [])
    (h : s.input = movesOfPacket bs ++ rest) : Presents s (s.packet ++ bs) rest := by
  have key : ∀ bs : List Byte, bs ≠ [] → ∃ ms cs b, movesOfPacket bs = ms ++ [.lastByte b] ∧ unmarkedBytes ms = some cs ∧
      bs = cs ++ [b] := by
    intro bs
    induction bs with
    | nil => exact fun h => absurd rfl h
    | cons b bs ih =>
      intro _
      cases bs with
      | nil => exact ⟨[], [], b, rfl, rfl, rfl⟩
      | cons c bs =>
        obtain ⟨ms, cs, d, h1, h2, h3⟩ := ih (by simp)
        exact ⟨.byte b :: ms, b :: cs, d, by rw [movesOfPacket, h1]; rfl, by rw [unmarkedBytes, h2]; rfl, by rw [h3]; rfl⟩
  obtain ⟨ms, cs, b, h1, h2, rfl⟩ := key bs hne
  exact ⟨ms, cs, b, by rw [h, h1, List.append_assoc]; rfl, h2, by rw [List.append_assoc]⟩

/-- The row of an opcode byte of R55. -/
theorem ofByte?_byte (op : Op) : Op.ofByte? op.byte = some op := by
  cases op <;> decide

/-- Only the opcode's own byte reads as it. -/
theorem byte_of_ofByte? (b : Byte) (op : Op) (h : Op.ofByte? b = some op) : op.byte = b := by
  have := List.find?_some h
  simpa using this

theorem decodeState_encodeState (v : Bool) : decodeState (encodeState v) = .ok v := by
  cases v <;> rfl

theorem int8_eq_toInt (b : Byte) : int8 b = b.toInt := by
  simp only [int8, BitVec.toInt_eq_toNat_cond]
  split <;> split <;> omega

end Sys2Proof.Machine
end

