-- ==== Sys2Proof/Laws/Exec.lean ====
section
/-! SUPPORT. What `exec` answers for each instruction: the ungated ones always, the gated ones once `INITD` is set, and all
gated ones before that. -/

namespace Sys2Proof.Machine

theorem exec_init (s : State) : exec .init s = .next (respond (((powerOn (emit [clockTo true, dataTo true] s).clearFb).raiseFlag maskInitd).setRsp 0x00#8)) := by
  simp only [exec, execInit, ungated]

theorem exec_rdst (s : State) : exec .rdst s = .next (respond (s.setRsp s.readStatus)) := by
  simp only [exec, execRdst, ungated]

theorem exec_clrst (s : State) : exec .clrst s = .next (respond (s.clearSticky.setRsp 0x00#8)) := by
  simp only [exec, execClrst, ungated]

theorem exec_fbget (row col : Byte) (s : State) (h : s.initd = true) :
    exec (.fbget row col) s = .next (respond (readPixel (int8 row) (int8 col) s)) := by
  simp only [exec, execFbget, gated_ready _ s h]

theorem exec_fbset (row col : Byte) (v : Bool) (s : State) (h : s.initd = true) :
    exec (.fbset row col v) s = .next (respond (fbSet (int8 row) (int8 col) v (s.setRsp 0x00#8))) := by
  simp only [exec, execFbset, gated_ready _ s h]

theorem exec_fbclr (s : State) (h : s.initd = true) :
    exec .fbclr s = .next (respond (s.clearFb.setRsp 0x00#8)) := by
  simp only [exec, execFbclr, gated_ready _ s h]

theorem exec_fbload (p : Bytes16) (s : State) (h : s.initd = true) :
    exec (.fbload p) s = .next (respond ((s.setFb (unpackImage p)).setRsp 0x00#8)) := by
  simp only [exec, execFbload, gated_ready _ s h]

theorem exec_refresh (s : State) (h : s.initd = true) :
    exec .refresh s = .next (respond ((refresh s).setRsp 0x00#8)) := by
  simp only [exec, execRefresh, gated_ready _ s h]

theorem exec_txwrite (addr : Byte) (d : List Byte) (s : State) (h : s.initd = true) :
    exec (.txwrite addr d) s = .next (respond (if malformedWrite addr d then s.setRsp 0x00#8 else emit (write3 addr d) (s.setRsp 0x00#8))) := by
  simp only [exec, execTxwrite, gated_ready _ s h]

theorem exec_pwron (s : State) (h : s.initd = true) :
    exec .pwron s = .next (respond ((powerOn s).setRsp 0x00#8)) := by
  simp only [exec, execPwron, gated_ready _ s h]

theorem exec_setpix (row col : Byte) (v : Bool) (s : State) (h : s.initd = true) :
    exec (.setpix row col v) s = .next (respond (refresh (fbSet (int8 row) (int8 col) v (s.setRsp 0x00#8)))) := by
  simp only [exec, execSetpix, gated_ready _ s h]

theorem exec_rect (x y w k : Byte) (v : Bool) (s : State) (h : s.initd = true) :
    exec (.rect x y w k v) s = .next (respond ((refresh (plot (rectPixels (int8 x) (int8 y) (int8 w) (int8 k)) v s)).setRsp 0x00#8)) := by
  simp only [exec, execRect, gated_ready _ s h]

theorem exec_line (r0 c0 r1 c1 : Byte) (s : State) (h : s.initd = true) :
    exec (.line r0 c0 r1 c1) s = .next (respond (drawLine (int8 r0) (int8 c0) (int8 r1) (int8 c1) (s.setRsp 0x00#8))) := by
  simp only [exec, execLine, gated_ready _ s h]

theorem exec_image (p : Bytes16) (s : State) (h : s.initd = true) :
    exec (.image p) s = .next (respond ((refresh (s.setFb (unpackImage p))).setRsp 0x00#8)) := by
  simp only [exec, execImage, gated_ready _ s h]

theorem exec_window (p : Bytes16) (s : State) (h : s.initd = true) :
    exec (.window p) s = .next (respond ((refresh (s.setFb p)).setRsp 0x00#8)) := by
  simp only [exec, execWindow, gated_ready _ s h]

/-- Every gated command before INIT is contained (R153). -/
theorem exec_early (i : Instr) (s : State) (hi : NeedsInit i = true) (h : s.initd = false) :
    exec i s = .next (containNoInit s) := by
  cases i
  case init => cases hi
  case rdst => cases hi
  case clrst => cases hi
  case fbget => simp only [exec, execFbget, gated_early _ s h]
  case fbset => simp only [exec, execFbset, gated_early _ s h]
  case fbclr => simp only [exec, execFbclr, gated_early _ s h]
  case fbload => simp only [exec, execFbload, gated_early _ s h]
  case refresh => simp only [exec, execRefresh, gated_early _ s h]
  case txwrite => simp only [exec, execTxwrite, gated_early _ s h]
  case pwron => simp only [exec, execPwron, gated_early _ s h]
  case setpix => simp only [exec, execSetpix, gated_early _ s h]
  case rect => simp only [exec, execRect, gated_early _ s h]
  case line => simp only [exec, execLine, gated_early _ s h]
  case image => simp only [exec, execImage, gated_early _ s h]
  case window => simp only [exec, execWindow, gated_early _ s h]

end Sys2Proof.Machine
end

