-- ==== Sys2Proof/Laws/PerInstr.lean ====
section
/-! SUPPORT. Families of statements about every instruction as syntax, one lemma per constructor. -/

namespace Sys2Proof.Laws.PacketShape

/-- A well-formed instruction's packet has at least the length of its row and at most 18 bytes, and its byte 0 names its row
(30_encoding.md R50, R51, R55). -/
def Statement (i : Instr) : Prop :=
  i.wellFormed = true →
    i.op.leastLength ≤ (encode i).length ∧ (encode i).length ≤ 18 ∧ (encode i).head?.bind Op.ofByte? = some i.op

/-- The opcode part of the family holds of every instruction; the lengths are what differs. -/
theorem of_lengths (i : Instr) (h : i.wellFormed = true → i.op.leastLength ≤ (encode i).length ∧ (encode i).length ≤ 18) :
    Statement i :=
  fun hw => ⟨(h hw).1, (h hw).2, Machine.ofByte?_byte i.op⟩

theorem init : Statement .init := of_lengths _ fun _ => ⟨Nat.le_refl _, Nat.le_of_ble_eq_true rfl⟩
theorem rdst : Statement .rdst := of_lengths _ fun _ => ⟨Nat.le_refl _, Nat.le_of_ble_eq_true rfl⟩
theorem clrst : Statement .clrst := of_lengths _ fun _ => ⟨Nat.le_refl _, Nat.le_of_ble_eq_true rfl⟩
theorem fbget (row col : Byte) : Statement (.fbget row col) := of_lengths _ fun _ => ⟨Nat.le_refl _, Nat.le_of_ble_eq_true rfl⟩
theorem fbset (row col : Byte) (state : Bool) : Statement (.fbset row col state) := of_lengths _ fun _ => ⟨Nat.le_refl _, Nat.le_of_ble_eq_true rfl⟩
theorem fbclr : Statement .fbclr := of_lengths _ fun _ => ⟨Nat.le_refl _, Nat.le_of_ble_eq_true rfl⟩
theorem fbload (p : Bytes16) : Statement (.fbload p) := of_lengths _ fun _ => by simp [encode, Instr.operandBytes, Instr.op, Op.leastLength]
theorem refresh : Statement .refresh := of_lengths _ fun _ => ⟨Nat.le_refl _, Nat.le_of_ble_eq_true rfl⟩
theorem txwrite (addr : Byte) (d : List Byte) : Statement (.txwrite addr d) := of_lengths _ fun h => by
  have hd : d.length ≤ 16 := by simpa [Instr.wellFormed] using h
  simp only [encode, Instr.operandBytes, Instr.op, Op.leastLength, List.length_cons]
  omega
theorem pwron : Statement .pwron := of_lengths _ fun _ => ⟨Nat.le_refl _, Nat.le_of_ble_eq_true rfl⟩
theorem setpix (row col : Byte) (state : Bool) : Statement (.setpix row col state) := of_lengths _ fun _ => ⟨Nat.le_refl _, Nat.le_of_ble_eq_true rfl⟩
theorem rect (x y w h : Byte) (state : Bool) : Statement (.rect x y w h state) := of_lengths _ fun _ => ⟨Nat.le_refl _, Nat.le_of_ble_eq_true rfl⟩
theorem line (r0 c0 r1 c1 : Byte) : Statement (.line r0 c0 r1 c1) := of_lengths _ fun _ => ⟨Nat.le_refl _, Nat.le_of_ble_eq_true rfl⟩
theorem image (p : Bytes16) : Statement (.image p) := of_lengths _ fun _ => by simp [encode, Instr.operandBytes, Instr.op, Op.leastLength]
theorem window (p : Bytes16) : Statement (.window p) := of_lengths _ fun _ => by simp [encode, Instr.operandBytes, Instr.op, Op.leastLength]

end Sys2Proof.Laws.PacketShape
end

