-- ==== Sys2Proof/Tests/Slice0.lean ====
section
/-! SUPPORT. Tests. Expected results are the spec's own (95_test_vectors.md; the vector or rule is named at each test);
`witness_…` theorems show inputs that meet the hypotheses of the obligation they name. -/

namespace Sys2Proof.Tests

open Sys2Proof.Machine

/-- After INIT, with `TR` and `RS` taken as empty (95_test_vectors.md, Conventions). -/
def ready : State := { State.reset with status := 0x01#8 }

/-- `ready` with this frame buffer. -/
def inked (v : Bytes16) : State := { ready with fb := v }

/-- `FB` all `FF`. -/
def full : State := inked (Vector.replicate 16 0xFF#8)

/-- `ready` with this `STATUS`. -/
def flagged (b : Byte) : State := { ready with status := b }

/-- `ready` with one byte of the frame buffer set. -/
def oneColumn (c : Nat) (b : Byte) : State := inked ((Vector.replicate 16 0x00#8).setIfInBounds c b)

/-- `ready` with these moves of the host to come. -/
def asked (ms : List HostMove) : State := { ready with input := ms }

/-- The next state, if there is one. -/
def after (a : Answer) : Option State :=
  match a with
  | .next t => some t
  | .fault _ => none
  | .refused _ => none

/-- One step on a whole packet. -/
def ran (bytes : List Byte) (s : State) : Option State := after (step { s with input := movesOfPacket bytes })

/-- The frame buffer, the responses and `STATUS`. -/
def block (t : State) : List Byte × List Byte × Byte := (t.fb.toList, t.rs, t.status)

/-- Pin writes, clock transitions and data transitions. -/
def wire (t : State) : Nat × Nat × Nat :=
  (t.tr.length, transitionsOn .clk Lines.high t.tr, transitionsOn .dio Lines.high t.tr)

/-- `n` zero bytes. -/
def dark (n : Nat) : List Byte := List.replicate n 0x00#8

/-! ### Encoding -/

/-- R51, R55, R61: a word written out for each command, the formats' bytes in order. -/
theorem test_decode_system_and_transport :
    decode [0x01#8] = .ok .init ∧ decode [0x02#8] = .ok .rdst ∧ decode [0x03#8] = .ok .clrst ∧ decode [0x20#8] = .ok .refresh ∧
      decode [0x21#8, 0x03#8, 0xAA#8, 0x55#8] = .ok (.txwrite 0x03#8 [0xAA#8, 0x55#8]) ∧
      decode [0x21#8, 0x00#8] = .ok (.txwrite 0x00#8 []) ∧ decode [0x22#8] = .ok .pwron := by decide

theorem test_decode_frame_buffer :
    decode [0x10#8, 0x02#8, 0x03#8] = .ok (.fbget 0x02#8 0x03#8) ∧
      decode [0x11#8, 0x07#8, 0x0F#8, 0x01#8] = .ok (.fbset 0x07#8 0x0F#8 true) ∧ decode [0x12#8] = .ok .fbclr ∧
      decode (0x13#8 :: 0x01#8 :: dark 15) = .ok (.fbload ((Vector.replicate 16 0x00#8).set 0 0x01#8)) := by decide

theorem test_decode_raster :
    decode [0x30#8, 0xFF#8, 0x00#8, 0x01#8] = .ok (.setpix 0xFF#8 0x00#8 true) ∧
      decode [0x31#8, 0x02#8, 0x03#8, 0x04#8, 0x05#8, 0x00#8] = .ok (.rect 0x02#8 0x03#8 0x04#8 0x05#8 false) ∧
      decode [0x32#8, 0x09#8, 0x14#8, 0x03#8, 0x05#8] = .ok (.line 0x09#8 0x14#8 0x03#8 0x05#8) ∧
      decode (0x33#8 :: 0x01#8 :: dark 15) = .ok (.image ((Vector.replicate 16 0x00#8).set 0 0x01#8)) ∧
      decode (0x34#8 :: (dark 15 ++ [0x80#8])) = .ok (.window ((Vector.replicate 16 0x00#8).set 15 0x80#8)) := by decide

/-- R51: TXWRITE with 17 payload bytes is no instruction a packet carries; 16 is the most. -/
theorem test_wellFormed_refuses_long_payload :
    Instr.wellFormed (.txwrite 0x00#8 (dark 17)) = false ∧ Instr.wellFormed (.txwrite 0x00#8 (dark 16)) = true := by decide

/-- 95_test_vectors.md Part 2, encoding table, the illegal rows: response `04`, `STATUS` `04`, no pin write. -/
theorem test_illegal_packets :
    ∀ p ∈ [[0x00#8], [0xFF#8], [0x55#8], [0x01#8, 0x00#8], [0x10#8, 0x01#8], [0x31#8, 0x00#8, 0x00#8, 0x01#8, 0x01#8, 0x02#8],
      [0x11#8, 0x00#8, 0x00#8, 0xFF#8], 0x13#8 :: dark 15, [0x21#8], 0x21#8 :: 0x00#8 :: dark 17,
      [0x30#8, 0x00#8, 0x00#8, 0x02#8]],
      (ran p State.reset).map (fun t => (block t, t.tr)) = some ((dark 16, [0x04#8], 0x04#8), []) := by decide +kernel

/-- 95_test_vectors.md Part 2, encoding table, the legal rows before INIT. -/
theorem test_before_init :
    (∀ p ∈ [[0x12#8], [0x20#8], [0x21#8, 0x00#8]],
      (ran p State.reset).map (fun t => (block t, t.tr)) = some ((dark 16, [0x08#8], 0x08#8), [])) ∧
    ∀ p ∈ [[0x02#8], [0x03#8]],
      (ran p State.reset).map (fun t => (block t, t.tr)) = some ((dark 16, [0x00#8], 0x00#8), []) := by decide +kernel

/-- 95_test_vectors.md Part 2: "byte `FF` is -1, `80` is -128, `7F` is 127, `FB` is -5, `FD` is -3". -/
theorem test_signed_operands :
    int8 0xFF#8 = -1 ∧ int8 0x80#8 = -128 ∧ int8 0x7F#8 = 127 ∧ int8 0xFB#8 = -5 ∧ int8 0xFD#8 = -3 := by decide

/-- spec/opcode_table.json numbers bit 0 as the least significant bit of byte 0: `30 07 0F 01`, and `13` with no operand
bits. -/
theorem test_table_words :
    decodeTableWord 32 0x010F0730 = some (.setpix 0x07#8 0x0F#8 true) ∧
      decodeTableWord 8 0x13 = some (.fbload (Vector.replicate 16 0x00#8)) ∧ decodeTableWord 8 0x55 = none := by decide

theorem test_fetch_word_runs :
    after (step (ready.withFetchWord 32 0x010F0730)) = after (exec (.setpix 0x07#8 0x0F#8 true) ready) ∧
      after (step (State.reset.withFetchWord 8 0x01)) = after (exec .init State.reset) := ⟨rfl, rfl⟩

/-! ### One step per command -/

/-- Y1, T4. -/
theorem test_init_from_reset :
    (ran [0x01#8] State.reset).map (fun t => (block t, wire t, t.far.rx.frames)) =
      some ((dark 16, [0x00#8], 0x01#8), (514, 336, 20), [[0x88#8], [0x40#8], 0xC0#8 :: dark 16, [0x88#8]]) := by decide +kernel

/-- Y2: the sticky flags are left. -/
theorem test_init_again :
    (ran [0x01#8] { full with status := 0x0F#8 }).map block = some (dark 16, [0x00#8], 0x0F#8) := by decide +kernel

/-- Y3. -/
theorem test_rdst : (ran [0x02#8] (flagged 0x0B#8)).map (fun t => (t.rs, t.status, t.tr)) = some ([0x0B#8], 0x0B#8, []) := by
  decide

/-- Y3. -/
theorem test_clrst :
    (ran [0x03#8] (flagged 0x0F#8)).map (fun t => (t.rs, t.status)) = some ([0x00#8], 0x01#8) ∧
      (ran [0x03#8] (flagged 0x08#8)).map (fun t => (t.rs, t.status)) = some ([0x00#8], 0x00#8) := by decide

/-- Part 2, frame-buffer table: FBGET 2,3 and 1,3 with `FB[3] = 1C`. -/
theorem test_fbget_in_range :
    (ran [0x10#8, 0x02#8, 0x03#8] (oneColumn 3 0x1C#8)).map (fun t => (t.rs, t.status)) = some ([0x01#8], 0x01#8) ∧
      (ran [0x10#8, 0x01#8, 0x03#8] (oneColumn 3 0x1C#8)).map (fun t => (t.rs, t.status)) = some ([0x00#8], 0x01#8) := by decide

/-- Part 2, frame-buffer table: FBGET 8,0 and 0,-1. -/
theorem test_fbget_out_of_range :
    (ran [0x10#8, 0x08#8, 0x00#8] full).map (fun t => (t.rs, t.status)) = some ([0x02#8], 0x03#8) ∧
      (ran [0x10#8, 0x00#8, 0xFF#8] full).map (fun t => (t.rs, t.status)) = some ([0x02#8], 0x03#8) := by decide

/-- Part 2, frame-buffer table: FBSET 7,15,1 and 3,3,0 (all `FF`). -/
theorem test_fbset_in_range :
    (ran [0x11#8, 0x07#8, 0x0F#8, 0x01#8] ready).map block = some (dark 15 ++ [0x80#8], [0x00#8], 0x01#8) ∧
      (ran [0x11#8, 0x03#8, 0x03#8, 0x00#8] full).map block =
        some (List.replicate 3 0xFF#8 ++ 0xF7#8 :: List.replicate 12 0xFF#8, [0x00#8], 0x01#8) := by decide +kernel

/-- Part 2, frame-buffer table: FBSET -1,0,1 and 0,16,1. -/
theorem test_fbset_out_of_range :
    (ran [0x11#8, 0xFF#8, 0x00#8, 0x01#8] ready).map block = some (dark 16, [0x02#8], 0x03#8) ∧
      (ran [0x11#8, 0x00#8, 0x10#8, 0x01#8] ready).map block = some (dark 16, [0x02#8], 0x03#8) := by decide +kernel

/-- Part 2, frame-buffer table. -/
theorem test_fbclr : (ran [0x12#8] full).map (fun t => (block t, t.tr)) = some ((dark 16, [0x00#8], 0x01#8), []) := by decide

/-- Part 2, frame-buffer table: only `p[0] = FF`; only `p[3] = F0`. -/
theorem test_fbload :
    (ran (0x13#8 :: 0xFF#8 :: dark 15) full).map block = some (List.replicate 8 0x01#8 ++ dark 8, [0x00#8], 0x01#8) ∧
      (ran (0x13#8 :: (dark 3 ++ 0xF0#8 :: dark 12)) full).map block =
        some (dark 12 ++ List.replicate 4 0x02#8, [0x00#8], 0x01#8) := by decide +kernel

/-- T2. -/
theorem test_refresh :
    (ran [0x20#8] full).map (fun t => (block t, wire t, t.far.rx.frames)) =
      some ((List.replicate 16 0xFF#8, [0x00#8], 0x01#8), (480, 316, 16),
        [[0x40#8], 0xC0#8 :: List.replicate 16 0xFF#8, [0x88#8]]) := by decide +kernel

/-- T5: `21 03 AA 55`, `21 0F 5A`. -/
theorem test_txwrite_fits :
    (ran [0x21#8, 0x03#8, 0xAA#8, 0x55#8] ready).map (fun t => (block t, wire t, t.far.rx.frames)) =
      some ((dark 16, [0x00#8], 0x01#8), (144, 92, 30), [[0x40#8], [0xC3#8, 0xAA#8, 0x55#8], [0x88#8]]) ∧
    (ran [0x21#8, 0x0F#8, 0x5A#8] ready).map (fun t => (block t, wire t, t.far.rx.frames)) =
      some ((dark 16, [0x00#8], 0x01#8), (120, 76, 22), [[0x40#8], [0xCF#8, 0x5A#8], [0x88#8]]) :=
  ⟨by decide +kernel, by decide +kernel⟩

/-- S8, T5: the four malformed writes. -/
theorem test_txwrite_malformed :
    ∀ p ∈ [[0x21#8, 0x10#8, 0x01#8], [0x21#8, 0x00#8], [0x21#8, 0x0F#8, 0x01#8, 0x02#8], [0x21#8, 0xFF#8, 0x01#8]],
      (ran p ready).map (fun t => (block t, t.tr)) = some ((dark 16, [0x00#8], 0x01#8), []) := by decide +kernel

/-- T4: `FB` not touched. -/
theorem test_pwron :
    (ran [0x22#8] full).map (fun t => (block t, wire t, t.far.rx.frames)) =
      some ((List.replicate 16 0xFF#8, [0x00#8], 0x01#8), (512, 336, 20),
        [[0x88#8], [0x40#8], 0xC0#8 :: dark 16, [0x88#8]]) := by decide +kernel

/-- Part 2, raster table: SETPIX 3,3,0 (all `FF`). -/
theorem test_setpix_in_range :
    (ran [0x30#8, 0x03#8, 0x03#8, 0x00#8] full).map (fun t => (block t, wire t)) =
      some ((List.replicate 3 0xFF#8 ++ 0xF7#8 :: List.replicate 12 0xFF#8, [0x00#8], 0x01#8), (480, 316, 18)) := by
  decide +kernel

/-- Part 2, raster table: SETPIX 0,16,1 still refreshes. -/
theorem test_setpix_out_of_range :
    (ran [0x30#8, 0x00#8, 0x10#8, 0x01#8] ready).map (fun t => (block t, wire t)) =
      some ((dark 16, [0x02#8], 0x03#8), (480, 316, 14)) := by decide +kernel

/-- Part 2, raster table: RECT -2,-1,4,3,1. -/
theorem test_rect_clips_low :
    (ran [0x31#8, 0xFE#8, 0xFF#8, 0x04#8, 0x03#8, 0x01#8] ready).map (fun t => (block t, wire t)) =
      some ((0x03#8 :: 0x03#8 :: dark 14, [0x00#8], 0x01#8), (480, 316, 18)) := by decide +kernel

/-- Part 2, raster table: RECT 14,6,100,100,1; RECT 127,0,127,8,1. -/
theorem test_rect_clips_high :
    (ran [0x31#8, 0x0E#8, 0x06#8, 0x64#8, 0x64#8, 0x01#8] ready).map block =
      some (dark 14 ++ [0xC0#8, 0xC0#8], [0x00#8], 0x01#8) ∧
    (ran [0x31#8, 0x7F#8, 0x00#8, 0x7F#8, 0x08#8, 0x01#8] ready).map block = some (dark 16, [0x00#8], 0x01#8) := by
  decide +kernel

/-- Part 2, raster table: LINE 3,9,3,4; LINE -3,4,12,4; LINE 0,16,7,16; LINE 3,20,3,30. -/
theorem test_line_axis_aligned :
    (ran [0x32#8, 0x03#8, 0x09#8, 0x03#8, 0x04#8] ready).map (fun t => (block t, wire t)) =
      some ((dark 4 ++ List.replicate 6 0x08#8 ++ dark 6, [0x00#8], 0x01#8), (480, 316, 26)) ∧
    (ran [0x32#8, 0xFD#8, 0x04#8, 0x0C#8, 0x04#8] ready).map block = some (dark 4 ++ 0xFF#8 :: dark 11, [0x00#8], 0x01#8) ∧
    (ran [0x32#8, 0x00#8, 0x10#8, 0x07#8, 0x10#8] ready).map (fun t => (block t, wire t)) =
      some ((dark 16, [0x02#8], 0x03#8), (480, 316, 14)) ∧
    (ran [0x32#8, 0x03#8, 0x14#8, 0x03#8, 0x1E#8] ready).map (fun t => (block t, wire t)) =
      some ((dark 16, [0x00#8], 0x01#8), (480, 316, 14)) :=
  ⟨by decide +kernel, by decide +kernel, by decide +kernel, by decide +kernel⟩

/-- S7 and Part 2, raster table: LINE 0,0,3,5; LINE 9,20,3,5. -/
theorem test_line_diagonal :
    (ran [0x32#8, 0x00#8, 0x00#8, 0x03#8, 0x05#8] ready).map (fun t => (block t, t.tr)) =
      some ((dark 16, [0x00#8], 0x01#8), []) ∧
    (ran [0x32#8, 0x09#8, 0x14#8, 0x03#8, 0x05#8] ready).map (fun t => (block t, t.tr)) =
      some ((dark 16, [0x00#8], 0x01#8), []) := by decide +kernel

/-- Part 2, raster table: IMAGE with `m[0][0] = m[7][15] = 1`. -/
theorem test_image :
    (ran (0x33#8 :: 0x01#8 :: (dark 14 ++ [0x80#8])) full).map (fun t => (block t, wire t)) =
      some ((0x01#8 :: (dark 14 ++ [0x80#8]), [0x00#8], 0x01#8), (480, 316, 18)) := by decide +kernel

/-- Part 2, raster table; P4 step 2. -/
theorem test_window :
    (ran (0x34#8 :: (dark 2 ++ List.replicate 4 0x1C#8 ++ dark 10)) full).map (fun t => (block t, wire t)) =
      some ((dark 2 ++ List.replicate 4 0x1C#8 ++ dark 10, [0x00#8], 0x01#8), (480, 316, 22)) := by decide +kernel

/-! ### The wire, the display, reset and the host -/

/-- R96: `FRAME([0x88])`, written out. -/
theorem test_frame_88 :
    frameWrites [0x88#8] =
      [clockTo false, clockTo true, dataTo true, dataTo false] ++
        [true, false, false, false, true, false, false, false].flatMap
          (fun b => [clockTo false, dataTo b, clockTo true]) ++
        [clockTo false, dataTo false, clockTo true, dataTo true] := by decide

/-- T3. -/
theorem test_single_frames :
    [0x40#8, 0xC0#8, 0x88#8].map (fun b => (transitionsOn .clk Lines.high (frameWrites [b]),
      transitionsOn .dio Lines.high (frameWrites [b]))) = [(20, 4), (20, 4), (20, 6)] := by decide +kernel

/-- R113: an incomplete byte is dropped at the stop. -/
theorem test_receiver_drops_incomplete_byte :
    ((startWrites ++ bitWrites true ++ bitWrites true ++ endWrites).foldl Receiver.step Receiver.initial).frames = [[]] := by
  decide

/-- Y1, the sink after INIT. -/
theorem test_sink_after_init :
    (ran [0x01#8] State.reset).map (fun t => t.far.sink.dm) = some ((List.range 16).map fun a => (a, 0x00#8)) ∧
      (ran [0x01#8] State.reset).map (fun t => t.far.sink.ai) = some (.held true) ∧
      (ran [0x01#8] State.reset).map (fun t => t.far.sink.dispOn) = some (.held true) := by decide +kernel

/-- P4 step 4: TXWRITE 3, [AA 55] changes `DM[3]`, `DM[4]` and no other. -/
theorem test_sink_after_txwrite :
    ((ran [0x21#8, 0x03#8, 0xAA#8, 0x55#8]
      { ready with far := { ready.far with sink := { ready.far.sink with
        dm := [(1, 0x1C#8), (2, 0x1C#8), (3, 0x1C#8), (4, 0x1C#8), (5, 0x00#8)] } } }).map (fun t => t.far.sink.dm)) =
      some [(1, 0x1C#8), (2, 0x1C#8), (3, 0xAA#8), (4, 0x55#8), (5, 0x00#8)] := by decide +kernel

/-- R37, last arm: `[0x40, 0x00]` is no frame R37 gives an effect. -/
theorem test_sink_stops_on_unknown_frame :
    (Sink.unspecified.takeFrame [0x40#8, 0x00#8]).stopped = true ∧ (Sink.unspecified.takeFrame [0x89#8]).stopped = true := by
  decide

/-- R170, R181: `rst` discards the part of a packet received, with no response. -/
theorem test_reset_discards_packet :
    (after (step { full with packet := [0x13#8], input := [.byte 0x00#8, .rst, .wait] })).map
      (fun t => (block t, t.packet, t.input, t.tr)) = some ((dark 16, [], 0x00#8), [], [.wait], []) := by decide

/-- R181: a wait before a packet does not lose it. -/
theorem test_wait_keeps_later_moves :
    (after (step (asked [.wait, .lastByte 0x02#8, .rst]))).map (fun t => (t.rs, t.input)) = some ([0x01#8], [.rst]) := by decide

/-- R74: `m[0][0]` is bit 0 of `p[0]`, `m[7][15]` is bit 7 of `p[15]`. -/
theorem test_pack_image :
    (packImage fun r c => (r == 0 && c == 0) || (r == 7 && c == 15)).toList = 0x01#8 :: (dark 14 ++ [0x80#8]) := by
  decide +kernel

/-- R61, R62: `drawRectangle(-2, -1, 4, 3, 1)` is `31 FE FF 04 03 01`; 128 cannot be encoded (U13). -/
theorem test_host_calls :
    (HostCall.drawRectangle (-2) (-1) 4 3 true).expand.map encode =
        some [0x31#8, 0xFE#8, 0xFF#8, 0x04#8, 0x03#8, 0x01#8] ∧ (HostCall.setPixel 128 0 true).expand = none := by decide

/-- H1: the empty text, 17 packets to the left, 33 to the right. -/
theorem test_scroll_empty_text :
    render [] = dark 32 ∧ (scrollText [] .left).length = 17 ∧ (scrollText [] .right).length = 33 := by decide +kernel

/-- H2, with glyph bytes 1 to 5 written in: `startCol` 1, 5 and 20. -/
theorem test_windows :
    let b := dark 16 ++ [0x01#8, 0x02#8, 0x03#8, 0x04#8, 0x05#8] ++ dark 16
    (windowAt b 1).toList = dark 15 ++ [0x01#8] ∧
      (windowAt b 5).toList = dark 11 ++ [0x01#8, 0x02#8, 0x03#8, 0x04#8, 0x05#8] ∧
      (windowAt b 20).toList = 0x05#8 :: dark 15 ∧ (windowAt b (-16)).toList = dark 16 := by decide +kernel

/-! ### Witnesses: inputs that meet the hypotheses of the obligations -/

theorem inv_of_input (ms : List HostMove) : MachineInv (asked ms) :=
  ⟨⟨rfl, rfl, .inl rfl⟩, rfl, by show 0x01#8 &&& 0xF0#8 = 0#8; decide, (fun _ h => nomatch h), ⟨.nil, fun _ h => nomatch h⟩, rfl⟩

theorem witness_DecodeOfEncode :
    ∀ i ∈ [Instr.txwrite 0x00#8 (dark 16), .txwrite 0xFF#8 [], .fbset 0x80#8 0x7F#8 true, .fbload (Vector.replicate 16 0xFF#8),
      .line 0x80#8 0x7F#8 0xFF#8 0x00#8], i.wellFormed = true := by decide

theorem witness_LegalPacket : decode (0x21#8 :: 0x00#8 :: dark 16) = .ok (.txwrite 0x00#8 (dark 16)) := by decide

/-- One packet for each of (a) to (d), at the edge of each, and the longest legal packet. -/
theorem witness_IllegalExactlyAsListed :
    decode (0x21#8 :: dark 18) = .error .overlong ∧ decode [0x35#8] = .error .reservedOpcode ∧
      decode [0x10#8, 0x00#8] = .error .wrongLength ∧ decode [0x21#8] = .error .wrongLength ∧
      decode [0x11#8, 0x00#8, 0x00#8, 0x02#8] = .error .badState ∧
      decode [0x31#8, 0x00#8, 0x00#8, 0x00#8, 0x00#8, 0xFF#8] = .error .badState ∧
      decode [0x11#8, 0x00#8, 0x00#8, 0x01#8] = .ok (.fbset 0x00#8 0x00#8 true) ∧
      decode (0x21#8 :: dark 17) = .ok (.txwrite 0x00#8 (dark 16)) := by decide

theorem witness_OperandIsSignedByte : int8 0x7F#8 = 127 ∧ int8 0x80#8 = -128 ∧ (0x7F#8).toNat < 128 ∧ 128 ≤ (0x80#8).toNat := by
  decide

/-- The first byte of FBGET 2, 3 already received; a wait before the second and between it and the last. -/
theorem witness_StepRunsTheDecodedInstruction :
    Presents { asked [.wait, .byte 0x02#8, .wait, .lastByte 0x03#8, .rst] with packet := [0x10#8] } [0x10#8, 0x02#8, 0x03#8] [.rst] ∧
      decode [0x10#8, 0x02#8, 0x03#8] = .ok (.fbget 0x02#8 0x03#8) :=
  ⟨⟨[.wait, .byte 0x02#8, .wait], [0x02#8], 0x03#8, rfl, rfl, rfl⟩, by decide⟩

theorem witness_IllegalPacketIsContained :
    Presents (asked [.wait, .lastByte 0x55#8, .wait]) [0x55#8] [.wait] ∧ decode [0x55#8] = .error .reservedOpcode :=
  ⟨⟨[.wait], [], 0x55#8, rfl, rfl, rfl⟩, by decide⟩

theorem witness_CommandBeforeInitIsContained :
    ∀ i ∈ [Instr.fbget 0x08#8 0x00#8, .fbclr, .refresh, .txwrite 0x00#8 [], .pwron, .line 0x00#8 0x00#8 0x03#8 0x05#8],
      NeedsInit i = true ∧ State.reset.initd = false := by decide

/-- `VAL`: FBGET of a set pixel answers bit 0. -/
theorem witness_OneResponsePerCommand :
    (after (exec (.fbget 0x02#8 0x03#8) (oneColumn 3 0x1C#8))).map (fun t => (t.rsp, t.cp)) = some (0x01#8, 1) := by decide

theorem witness_PartOfAPacketWaits :
    unmarkedBytes (asked [.byte 0x31#8, .wait, .byte 0x00#8, .wait]).input = some [0x31#8, 0x00#8] ∧
      unmarkedBytes (asked []).input = some [] := by decide

/-- The condition "inside the matrix" of the pixel statements. -/
def Inside (row col : Byte) : Prop := 0 ≤ int8 row ∧ int8 row ≤ 7 ∧ 0 ≤ int8 col ∧ int8 col ≤ 15

/-- `INITD = 1`, two opposite corners of the matrix, and their neighbours outside it. -/
theorem witness_pixel_clauses :
    ready.initd = true ∧ (Inside 0x00#8 0x00#8 ∧ Inside 0x07#8 0x0F#8) ∧
      ¬Inside 0x08#8 0x00#8 ∧ ¬Inside 0x00#8 0x10#8 ∧ ¬Inside 0xFF#8 0x00#8 ∧ ¬Inside 0x00#8 0xFF#8 := by
  unfold Inside; decide

/-- For the statements whose only hypothesis is `INITD = 1` (FBCLR, FBLOAD, the packing, RECT, IMAGE, WINDOW, REFRESH, PWRON,
a scroll) and for those that speak of idle lines (INIT, PWRON). -/
theorem witness_idle_lines : ready.lines = Lines.high ∧ State.reset.lines = Lines.high := ⟨rfl, rfl⟩

theorem witness_initialised : ready.initd = true ∧ full.initd = true ∧ (flagged 0x0F#8).initd = true := by decide

/-- A row inside with a sweep past both edges; rows just outside; sweeps just outside on either side. -/
theorem witness_HorizontalLine :
    int8 0x07#8 = int8 0x07#8 ∧ ready.initd = true ∧ (0 ≤ int8 0x07#8 ∧ int8 0x07#8 ≤ 7) ∧
      (¬(0 ≤ int8 0x08#8 ∧ int8 0x08#8 ≤ 7) ∧ 0 ≤ max (int8 0xFF#8) (int8 0x00#8) ∧ min (int8 0xFF#8) (int8 0x00#8) ≤ 15) ∧
      max (int8 0xFE#8) (int8 0xFF#8) < 0 ∧ 15 < min (int8 0x10#8) (int8 0x14#8) := by decide

/-- A column inside; columns just outside; sweeps just outside on either side. -/
theorem witness_VerticalLine :
    int8 0x00#8 ≠ int8 0x07#8 ∧ int8 0x0F#8 = int8 0x0F#8 ∧ (0 ≤ int8 0x0F#8 ∧ int8 0x0F#8 ≤ 15) ∧
      (¬(0 ≤ int8 0x10#8 ∧ int8 0x10#8 ≤ 15) ∧ 0 ≤ max (int8 0x07#8) (int8 0x08#8) ∧ min (int8 0x07#8) (int8 0x08#8) ≤ 7) ∧
      max (int8 0xFE#8) (int8 0xFF#8) < 0 ∧ 7 < min (int8 0x08#8) (int8 0x09#8) := by decide

theorem witness_DiagonalLine : ready.initd = true ∧ int8 0x00#8 ≠ int8 0x03#8 ∧ int8 0x00#8 ≠ int8 0x05#8 := by decide

/-- The longest fits at each end: 16 bytes at 0, 1 byte at 15. -/
theorem witness_TxwriteEmitsThreeFrames :
    ready.initd = true ∧ ((0x00#8).toNat ≤ 15 ∧ 1 ≤ (dark 16).length ∧ (0x00#8).toNat + (dark 16).length ≤ 16) ∧
      (0x0F#8).toNat ≤ 15 ∧ 1 ≤ (dark 1).length ∧ (0x0F#8).toNat + (dark 1).length ≤ 16 := by decide

/-- Each of the three ways to be malformed, the other two not holding. -/
theorem witness_MalformedTxwrite :
    ready.initd = true ∧ 15 < (0x10#8).toNat ∧ (dark 0 = [] ∧ ¬15 < (0x00#8).toNat) ∧
      (16 < (0x0F#8).toNat + (dark 2).length ∧ ¬15 < (0x0F#8).toNat) := by decide

theorem witness_OnlyDrawingCommands :
    WritesFb (.txwrite 0x03#8 [0xAA#8]) = false ∧ ∃ t, exec (.txwrite 0x03#8 [0xAA#8]) ready = .next t := ⟨rfl, _, rfl⟩

theorem witness_StatusFlagsAreSticky :
    (∃ t, exec .refresh (flagged 0x0F#8) = .next t) ∧ (flagged 0x0F#8).initd = true ∧
      ∀ k ∈ [1, 2, 3], (flagged 0x0F#8).status.getLsbD k = true := ⟨⟨_, rfl⟩, by decide, by decide⟩

/-- A step that is no reset and no CLRST, one that is a reset, one that is INIT. -/
theorem witness_StatusFlagsAreSticky_steps :
    let quiet : State := { flagged 0x0F#8 with input := [.byte 0x20#8] }
    (∃ t, step quiet = .next t) ∧ ¬Resets quiet ∧ (∀ packet rest, Presents quiet packet rest → decode packet ≠ .ok .clrst) ∧
      (∃ t, step { flagged 0x0F#8 with input := [.rst] } = .next t) ∧ Resets { flagged 0x0F#8 with input := [.rst] } ∧
      Presents (asked [.lastByte 0x01#8]) [0x01#8] [] := by
  refine ⟨⟨_, rfl⟩, ?_, ?_, ⟨_, rfl⟩, ⟨[], .inr ⟨[], [], rfl, rfl⟩⟩, [], [], 0x01#8, rfl, rfl, rfl⟩
  · rintro ⟨rest, h | h⟩
    · exact nomatch nextEvent_cutsShort h
    · exact nomatch nextEvent_resetsIdle h
  · intro packet rest h
    exact nomatch nextEvent_presents h

theorem witness_StickyFlagsNeverBlock :
    (0x0F#8).getLsbD 0 = ready.initd ∧ ∃ t, exec (.setpix 0x08#8 0x00#8 true) ready = .next t := ⟨by decide, _, rfl⟩

theorem witness_BlockNeverReadsTheFarEnd : ∃ t, step (asked [.lastByte 0x20#8]) = .next t := ⟨_, rfl⟩

theorem witness_PinWriteCounts :
    (Instr.txwrite 0x0F#8 (dark 1)).wellFormed = true ∧ ready.initd = true ∧ ∃ t, exec (.txwrite 0x0F#8 (dark 1)) ready = .next t :=
  ⟨by decide, by decide, _, rfl⟩

/-- Each kind of move the host can make. -/
theorem witness_EveryStepKeepsInvariant :
    ∀ ms ∈ [[.lastByte 0x20#8], [.rst], [.lastByteThenReset 0x01#8], [.byte 0x01#8, .wait]],
      MachineInv (asked ms) ∧ ∃ t, step (asked ms) = .next t := by
  intro ms h
  refine ⟨inv_of_input ms, ?_⟩
  simp only [List.mem_cons, List.not_mem_nil, or_false] at h
  rcases h with rfl | rfl | rfl | rfl <;> exact ⟨_, rfl⟩

/-- A clock write and a data write inside the frame of `0x40`. -/
theorem witness_FrameSignalling :
    frameWrites [0x40#8] = (frameWrites [0x40#8]).take 7 ++ clockTo false :: (frameWrites [0x40#8]).drop 8 ∧
      frameWrites [0x40#8] = (frameWrites [0x40#8]).take 8 ++ dataTo true :: (frameWrites [0x40#8]).drop 9 ∧
      4 ≤ ((frameWrites [0x40#8]).take 8).length ∧ (frameWrites [0x40#8]).drop 9 ≠ [] ∧
      (Lines.high.writeAll ((frameWrites [0x40#8]).take 8)).changes (dataTo true) = true := by decide

theorem witness_ReceiverReadsFrame : [0xC0#8, 0x00#8] ≠ [] := by decide

theorem witness_CommandsSendWholeFrames :
    LinkIdle ready ∧ ready.initd = true ∧ ∃ t, exec .pwron ready = .next t := ⟨(inv_of_input []).link, by decide, _, rfl⟩

theorem witness_SequencerPerformsTheWrites : 1 ≤ 1 ∧ 0 < (startWrites).length * 1 := by decide

theorem witness_RefreshMirrorsFrameBuffer :
    MachineInv ready ∧ ready.initd = true ∧ Refreshes (.line 0x08#8 0x00#8 0x08#8 0x00#8) = true ∧
      ∃ t, exec (.line 0x08#8 0x00#8 0x08#8 0x00#8) ready = .next t := ⟨inv_of_input [], by decide, by decide, _, rfl⟩

/-- One byte at address 15, where the pointer wraps. -/
theorem witness_TxwriteStoresAtItsAddress :
    MachineInv ready ∧ ready.initd = true ∧ 1 ≤ (dark 1).length ∧ (0x0F#8).toNat + (dark 1).length ≤ 16 ∧
      ∃ t, exec (.txwrite 0x0F#8 (dark 1)) ready = .next t := ⟨inv_of_input [], by decide, by decide, by decide, _, rfl⟩

theorem witness_PowerOnClearsTheDisplay :
    (MachineInv State.reset ∧ ∃ t, exec .init State.reset = .next t) ∧ MachineInv ready ∧ ready.initd = true ∧
      ∃ t, exec .pwron ready = .next t :=
  ⟨⟨⟨⟨rfl, rfl, .inl rfl⟩, rfl, by decide, by decide, by decide, rfl⟩, _, rfl⟩, inv_of_input [], by decide, _, rfl⟩

/-- A one-byte opcode with data after it; another opcode; an address frame that runs past 15; one without
auto-increment. -/
theorem witness_UnknownFrameStopsTheSink :
    (∀ f ∈ [(0x40#8, dark 1), (0x88#8, dark 1), (0x89#8, dark 0), (0xD0#8, dark 1)],
      (f.1 = 0x40#8 ∨ f.1 = 0x88#8 → f.2 ≠ []) ∧ ¬(0xC0 ≤ f.1.toNat ∧ f.1.toNat ≤ 0xCF)) ∧
    ((0xCF#8 = 0x40#8 ∨ 0xCF#8 = 0x88#8 → dark 2 ≠ []) ∧ ¬((0xCF#8).toNat - 0xC0 + (dark 2).length ≤ 16)) ∧
    ¬(({ Sink.unspecified with ai := .held false } : Sink).autoInc = true) := by decide

theorem witness_IdleReset : ResetsIdle { full with input := [.byte 0x13#8, .wait, .rst, .wait] } [.wait] :=
  ⟨[.byte 0x13#8, .wait], [0x13#8], rfl, rfl⟩

theorem witness_BusyReset :
    MachineInv (asked [.byte 0x10#8, .wait, .lastByteThenReset 0x01#8]) ∧
      CutsShort (asked [.byte 0x10#8, .wait, .lastByteThenReset 0x01#8]) [] :=
  ⟨inv_of_input _, [.byte 0x10#8, .wait], [0x10#8], 0x01#8, rfl, rfl⟩

theorem witness_HostOperandReadsBack :
    (∀ v ∈ [(-128 : Int), 127], -128 ≤ v ∧ v ≤ 127) ∧ ∀ v ∈ [(-129 : Int), 128], ¬(-128 ≤ v ∧ v ≤ 127) := by decide

theorem witness_RenderedTextLayout : 1 < ['A', '1'].length ∧ 0 + 1 < ['A', '1'].length := by decide

theorem witness_UnsupportedCharacter : hasGlyph '1'.toUpper = false ∧ 'a'.toUpper = 'A'.toUpper ∧ hasGlyph ' ' = true := by
  decide

/-- The shortest bitmap: one step to the left, seventeen to the right. -/
theorem witness_ScrollSweepCoverage :
    16 ≤ (dark 16).length ∧ sweep .left 16 = [0] ∧ (sweep .right 16)[16]? = some (-16) := by decide

end Sys2Proof.Tests
end

section
/-! PROOFS of the statements about the state (10_state.md). First the facts they share: the update laws of `fbSet` and `plot`,
the rule of each command apart from the init gate, and what every rule does to the wire, the flags and the response. -/

namespace Sys2Proof.Machine

/-! ### What the pixel reads and writes leave alone -/

@[simp] theorem fbSet_lines (row col : Int) (v : Bool) (s : State) : (fbSet row col v s).lines = s.lines :=
  (fbSet_keepsWire row col v s).lines
@[simp] theorem fbSet_tr (row col : Int) (v : Bool) (s : State) : (fbSet row col v s).tr = s.tr :=
  (fbSet_keepsWire row col v s).tr
@[simp] theorem fbSet_rs (row col : Int) (v : Bool) (s : State) : (fbSet row col v s).rs = s.rs :=
  (fbSet_keepsWire row col v s).rs
@[simp] theorem fbSet_far (row col : Int) (v : Bool) (s : State) : (fbSet row col v s).far = s.far :=
  (fbSet_keepsWire row col v s).far

@[simp] theorem plot_lines (ps : List (Int × Int)) (v : Bool) (s : State) : (plot ps v s).lines = s.lines :=
  (plot_keepsWire ps v s).lines
@[simp] theorem plot_tr (ps : List (Int × Int)) (v : Bool) (s : State) : (plot ps v s).tr = s.tr :=
  (plot_keepsWire ps v s).tr
@[simp] theorem plot_rs (ps : List (Int × Int)) (v : Bool) (s : State) : (plot ps v s).rs = s.rs :=
  (plot_keepsWire ps v s).rs
@[simp] theorem plot_far (ps : List (Int × Int)) (v : Bool) (s : State) : (plot ps v s).far = s.far :=
  (plot_keepsWire ps v s).far

theorem readPixel_keepsWire (row col : Int) (s : State) : KeepsWire s (readPixel row col s) := by
  unfold readPixel
  split <;> exact ⟨rfl, rfl, rfl, rfl, rfl, rfl⟩

/-- A run of `fb_set` raises the same mask in `STATUS` and in the response: nothing, or the warning (R75, R151). -/
theorem plot_raises (ps : List (Int × Int)) (v : Bool) (s : State) :
    ∃ m, (m = 0#8 ∨ m = maskWarn) ∧ (plot ps v s).status = s.status ||| m ∧ (plot ps v s).rsp = s.rsp ||| m := by
  obtain ⟨hs, hr⟩ := flags_plot ps v s
  cases h : ps.all fun p => inRange p.1 p.2
  · exact ⟨maskWarn, .inr rfl, by simp [hs, h], by simp [hr, h]⟩
  · exact ⟨0#8, .inl rfl, by simp [hs, h], by simp [hr, h]⟩

/-- `fb_set` is the run of one pixel. -/
theorem fbSet_eq_plot (row col : Int) (v : Bool) (s : State) : fbSet row col v s = plot [(row, col)] v s := rfl

/-- A LINE of any operands is a refreshed run of `fb_set` when it is axis-aligned, and nothing at all otherwise (R84). -/
theorem drawLine_cases (r0 c0 r1 c1 : Int) (s : State) :
    ((r0 = r1 ∨ c0 = c1) ∧ ∃ ps, drawLine r0 c0 r1 c1 s = refresh (plot ps true s)) ∨
      (¬(r0 = r1 ∨ c0 = c1) ∧ drawLine r0 c0 r1 c1 s = s) := by
  by_cases hr : r0 = r1
  · exact .inl ⟨.inl hr, _, by rw [drawLine, if_pos hr]⟩
  · by_cases hc : c0 = c1
    · exact .inl ⟨.inr hc, _, by rw [drawLine, if_neg hr, if_pos hc]⟩
    · exact .inr ⟨by simp [hr, hc], by rw [drawLine, if_neg hr, if_neg hc]⟩

theorem int8_inj (a b : Byte) : int8 a = int8 b ↔ a = b := by
  rw [int8_eq_toInt, int8_eq_toInt, BitVec.toInt_inj]

/-! ### The rule of each command, apart from the init gate -/

/-- What a command does once it is past the gate, its response not yet appended (R57, stage 3). `exec_open` ties it to `exec`. -/
def commandRule : Instr → State → State
  | .init => fun s => ((powerOn (emit [clockTo true, dataTo true] s).clearFb).raiseFlag maskInitd).setRsp 0x00#8
  | .rdst => fun s => s.setRsp s.readStatus
  | .clrst => fun s => s.clearSticky.setRsp 0x00#8
  | .fbget row col => readPixel (int8 row) (int8 col)
  | .fbset row col v => fun s => fbSet (int8 row) (int8 col) v (s.setRsp 0x00#8)
  | .fbclr => fun s => s.clearFb.setRsp 0x00#8
  | .fbload p => fun s => (s.setFb (unpackImage p)).setRsp 0x00#8
  | .refresh => fun s => (refresh s).setRsp 0x00#8
  | .txwrite addr d => fun s =>
    if malformedWrite addr d then s.setRsp 0x00#8 else emit (write3 addr d) (s.setRsp 0x00#8)
  | .pwron => fun s => (powerOn s).setRsp 0x00#8
  | .setpix row col v => fun s => refresh (fbSet (int8 row) (int8 col) v (s.setRsp 0x00#8))
  | .rect x y w h v => fun s => (refresh (plot (rectPixels (int8 x) (int8 y) (int8 w) (int8 h)) v s)).setRsp 0x00#8
  | .line r0 c0 r1 c1 => fun s => drawLine (int8 r0) (int8 c0) (int8 r1) (int8 c1) (s.setRsp 0x00#8)
  | .image p => fun s => (refresh (s.setFb (unpackImage p))).setRsp 0x00#8
  | .window p => fun s => (refresh (s.setFb p)).setRsp 0x00#8

/-- The command is stopped at the init gate (R15, R153). -/
def GateShut (i : Instr) (s : State) : Prop := NeedsInit i = true ∧ s.initd = false

theorem exec_shut {i : Instr} {s : State} (h : GateShut i s) : exec i s = .next (containNoInit s) :=
  exec_early i s h.1 h.2

/-- Past the gate every command answers its rule and its response (R57, stage 3). -/
theorem exec_open {i : Instr} {s : State} (h : ¬GateShut i s) : exec i s = .next (respond (commandRule i s)) := by
  have ready : NeedsInit i = true → s.initd = true := by simpa [GateShut] using h
  cases i with
  | init => exact exec_init s
  | rdst => exact exec_rdst s
  | clrst => exact exec_clrst s
  | fbget row col => exact exec_fbget row col s (ready rfl)
  | fbset row col v => exact exec_fbset row col v s (ready rfl)
  | fbclr => exact exec_fbclr s (ready rfl)
  | fbload p => exact exec_fbload p s (ready rfl)
  | refresh => exact exec_refresh s (ready rfl)
  | txwrite addr d => exact exec_txwrite addr d s (ready rfl)
  | pwron => exact exec_pwron s (ready rfl)
  | setpix row col v => exact exec_setpix row col v s (ready rfl)
  | rect x y w ht v => exact exec_rect x y w ht v s (ready rfl)
  | line r0 c0 r1 c1 => exact exec_line r0 c0 r1 c1 s (ready rfl)
  | image p => exact exec_image p s (ready rfl)
  | window p => exact exec_window p s (ready rfl)

/-- Everything a command can answer: contained at the gate, or its rule and its response (R57). -/
theorem exec_cases {i : Instr} {s t : State} (h : exec i s = .next t) :
    (GateShut i s ∧ t = containNoInit s) ∨ (¬GateShut i s ∧ t = respond (commandRule i s)) := by
  by_cases hg : GateShut i s
  · rw [exec_shut hg] at h
    exact .inl ⟨hg, (Host.Outcome.next.inj h).symm⟩
  · rw [exec_open hg] at h
    exact .inr ⟨hg, (Host.Outcome.next.inj h).symm⟩

/-- Everything a packet can run: its instruction, or the containment of an illegal one (R57). -/
theorem runPacket_cases {packet : List Byte} {s t : State} (h : runPacket packet s = .next t) :
    (∃ i, decode packet = .ok i ∧ exec i s = .next t) ∨ ((∃ e, decode packet = .error e) ∧ t = containIllegal s) := by
  unfold runPacket at h
  cases hd : decode packet with
  | ok i =>
    rw [hd] at h
    exact .inl ⟨i, rfl, h⟩
  | error e =>
    rw [hd] at h
    exact .inr ⟨⟨e, rfl⟩, (Host.Outcome.next.inj h).symm⟩

/-! ### The frame buffer -/

theorem readPixel_fb (row col : Int) (s : State) : (readPixel row col s).fb = s.fb := by
  unfold readPixel
  split <;> rfl

theorem commandRule_fb (i : Instr) (s : State) (h : WritesFb i = false) : (commandRule i s).fb = s.fb := by
  cases i with
  | rdst | clrst => rfl
  | fbget row col => exact readPixel_fb _ _ s
  | refresh => rw [commandRule, setRsp_fb, refresh_fb]
  | pwron => rw [commandRule, setRsp_fb, powerOn_fb]
  | txwrite addr d => simp only [commandRule]; split <;> rfl
  | init | fbset | fbclr | fbload | setpix | rect | line | image | window => cases h

/-! ### The pin writes -/

theorem refreshFrames_eq (fb : Bytes16) : refreshFrames fb = write3Frames 0x00#8 fb.toList := rfl

theorem clearFrames_eq : clearFrames = powerOnFrames := rfl

theorem malformedWrite_iff (addr : Byte) (d : List Byte) :
    malformedWrite addr d = true ↔ 15 < addr.toNat ∨ d.length = 0 ∨ 16 < addr.toNat + d.length := by
  simp only [malformedWrite, decide_eq_true_eq]

theorem pinWrites_nil {s t : State} (hl : t.lines = s.lines) (ht : t.tr = s.tr) (hf : t.far = s.far) :
    PinWrites s t [] :=
  ⟨hl, ht.trans (List.append_nil _).symm, hf⟩

/-- A refresh after buffer writes shows on the wire as the refresh frames of the buffer it leaves. -/
theorem pinWrites_refresh {s u : State} (k : KeepsWire s u) :
    PinWrites s (refresh u) (framesWrites (refreshFrames (refresh u).fb)) := by
  rw [refresh_fb, refreshFrames_eq]
  exact k.pinWrites (refresh_pinWrites u)

/-- INIT's rule writes both lines, then powers on (R120). -/
theorem init_pinWrites (s : State) :
    PinWrites s (commandRule .init s) ([clockTo true, dataTo true] ++ framesWrites clearFrames) := by
  rw [clearFrames_eq]
  refine ⟨?_, ?_, ?_⟩
  · simp only [commandRule, setRsp_lines, raiseFlag_lines, powerOn_lines, clearFb_lines, emit_lines, writeAll_append]
  · simp only [commandRule, setRsp_tr, raiseFlag_tr, powerOn_tr, clearFb_tr, emit_tr, List.append_assoc]
  · simp only [commandRule, setRsp_far, raiseFlag_far, powerOn_far, clearFb_far, emit_far, steps_append]

theorem powerOn_pinWrites (s : State) : PinWrites s (powerOn s) (framesWrites clearFrames) := by
  rw [clearFrames_eq, powerOn]
  exact emit_pinWrites _ s

theorem pinWrites_setRsp {s t : State} {ws : List PinWrite} (h : PinWrites s t ws) (b : Byte) :
    PinWrites s (t.setRsp b) ws := by
  obtain ⟨hl, ht, hf⟩ := h
  exact ⟨hl, ht, hf⟩

theorem KeepsWire.of_setRsp {s u : State} {b : Byte} (k : KeepsWire (s.setRsp b) u) : KeepsWire s u :=
  ⟨k.lines, k.tr, k.rs, k.packet, k.input, k.far⟩

theorem setFb_keepsWire (v : Bytes16) (s : State) : KeepsWire s (s.setFb v) := ⟨rfl, rfl, rfl, rfl, rfl, rfl⟩

/-- Every rule but INIT's puts exactly its frames on the wire (R89, R100 to R105). -/
theorem commandRule_pinWrites_of_ne_init (i : Instr) (s : State) (hi : i ≠ .init) :
    PinWrites s (commandRule i s) (framesWrites (commandFrames i (commandRule i s).fb)) := by
  cases i <;> simp only [commandRule, commandFrames, framesWrites_nil, setRsp_fb]
  case init => exact absurd rfl hi
  case rdst | clrst | fbclr => exact pinWrites_nil rfl rfl rfl
  case fbload p => exact pinWrites_setRsp (pinWrites_nil (setFb_lines _ s) (setFb_tr _ s) (setFb_far _ s)) _
  case fbget row col =>
    have k := readPixel_keepsWire (int8 row) (int8 col) s
    exact pinWrites_nil k.lines k.tr k.far
  case fbset row col v => exact pinWrites_nil (fbSet_lines ..) (fbSet_tr ..) (fbSet_far ..)
  case refresh => exact pinWrites_setRsp (pinWrites_refresh (.refl s)) _
  case pwron => exact pinWrites_setRsp (powerOn_pinWrites s) _
  case txwrite addr d =>
    simp only [← malformedWrite_iff]
    split
    · exact pinWrites_nil rfl rfl rfl
    · exact emit_pinWrites (write3 addr d) (s.setRsp 0x00#8)
  case setpix row col v => exact pinWrites_refresh (fbSet_keepsWire _ _ v (s.setRsp 0x00#8)).of_setRsp
  case rect x y w ht v => exact pinWrites_setRsp (pinWrites_refresh (plot_keepsWire _ v s)) _
  case line r0 c0 r1 c1 =>
    obtain ⟨h, ps, hd⟩ | ⟨h, hd⟩ := drawLine_cases (int8 r0) (int8 c0) (int8 r1) (int8 c1) (s.setRsp 0x00#8) <;>
      rw [int8_inj, int8_inj] at h
    · rw [hd, if_pos h]
      exact pinWrites_refresh (plot_keepsWire ps true (s.setRsp 0x00#8)).of_setRsp
    · rw [hd, if_neg h]
      exact pinWrites_nil rfl rfl rfl
  case image p => exact pinWrites_setRsp (pinWrites_refresh (setFb_keepsWire _ s)) _
  case window p => exact pinWrites_setRsp (pinWrites_refresh (setFb_keepsWire p s)) _

/-- Every rule puts exactly its frames on the wire, after INIT's two line writes (R89, R100 to R105, R120). -/
theorem commandRule_pinWrites (i : Instr) (s : State) :
    PinWrites s (commandRule i s) (leadingWrites i ++ framesWrites (commandFrames i (commandRule i s).fb)) := by
  by_cases hi : i = .init
  · subst hi
    exact init_pinWrites s
  · rw [leadingWrites, if_neg hi, List.nil_append]
    exact commandRule_pinWrites_of_ne_init i s hi

/-- No rule touches the responses already given (R20, R56). -/
theorem commandRule_rs (i : Instr) (s : State) : (commandRule i s).rs = s.rs := by
  cases i with
  | fbget row col => exact (readPixel_keepsWire _ _ s).rs
  | txwrite addr d => simp only [commandRule]; split <;> rfl
  | line r0 c0 r1 c1 =>
    simp only [commandRule]
    obtain ⟨-, ps, h⟩ | ⟨-, h⟩ := drawLine_cases (int8 r0) (int8 c0) (int8 r1) (int8 c1) (s.setRsp 0x00#8) <;> simp [h]
  | _ => simp [commandRule]

/-! ### The response byte -/

/-- Bits 7:4 of a response stay zero when the warning is or is not added. -/
theorem high_zero_or {r m : Byte} (hr : r &&& 0xF0#8 = 0#8) (hm : m = 0#8 ∨ m = maskWarn) : (r ||| m) &&& 0xF0#8 = 0#8 := by
  revert r
  rcases hm with rfl | rfl <;> decide

theorem readStatus_high (b : Byte) : b &&& maskDefined &&& 0xF0#8 = 0#8 := by
  revert b
  decide

theorem plot_rsp_high (ps : List (Int × Int)) (v : Bool) (s : State) :
    (plot ps v (s.setRsp 0x00#8)).rsp &&& 0xF0#8 = 0#8 := by
  obtain ⟨m, hm, -, hr⟩ := plot_raises ps v (s.setRsp 0x00#8)
  rw [hr]
  exact high_zero_or (by simp) hm

/-- Every rule answers with bits 7:4 zero (R56). -/
theorem commandRule_rsp_high (i : Instr) (s : State) : (commandRule i s).rsp &&& 0xF0#8 = 0#8 := by
  cases i with
  | rdst => exact readStatus_high s.status
  | fbget row col =>
    simp only [commandRule, readPixel]
    split
    · rw [setRsp_rsp]
      split <;> rfl
    · simp [maskWarn]
  | fbset row col v =>
    simp only [commandRule, fbSet_eq_plot]
    exact plot_rsp_high _ v s
  | setpix row col v =>
    simp only [commandRule, refresh_rsp, fbSet_eq_plot]
    exact plot_rsp_high _ v s
  | txwrite addr d => simp only [commandRule]; split <;> simp
  | line r0 c0 r1 c1 =>
    simp only [commandRule]
    obtain ⟨-, ps, h⟩ | ⟨-, h⟩ := drawLine_cases (int8 r0) (int8 c0) (int8 r1) (int8 c1) (s.setRsp 0x00#8)
    · rw [h, refresh_rsp]
      exact plot_rsp_high ps true s
    · rw [h, setRsp_rsp]
      rfl
  | init | clrst | fbclr | fbload | refresh | pwron | rect | image | window => simp [commandRule]

/-! ### `STATUS` -/

/-- How `STATUS` may go from `a` to `b` where no reset is taken: the sticky flags fall only if `clears`, `INITD` never falls and
rises only if `inits`, and the reserved bits stay (R14, R15). `clears` will say that the command is CLRST, `inits` that it is
INIT. -/
structure StatusRule (clears inits : Prop) (a b : Byte) : Prop where
  sticky : ¬clears → ∀ k, 1 ≤ k → k ≤ 3 → a.getLsbD k = true → b.getLsbD k = true
  initd : a.getLsbD 0 = true → b.getLsbD 0 = true
  rises : b.getLsbD 0 = true → a.getLsbD 0 = true ∨ inits
  reserved : b >>> 4 = a >>> 4

theorem StatusRule.refl (clears inits : Prop) (a : Byte) : StatusRule clears inits a a :=
  ⟨fun _ _ _ _ h => h, id, .inl, rfl⟩

theorem StatusRule.mono {clears clears' inits inits' : Prop} {a b : Byte} (h : StatusRule clears inits a b)
    (hc : clears → clears') (hi : inits → inits') : StatusRule clears' inits' a b :=
  ⟨fun hn => h.sticky fun x => hn (hc x), h.initd, fun hb => (h.rises hb).imp_right hi, h.reserved⟩

/-- Raising sticky flags, which are the bits 1 to 3. -/
theorem StatusRule.raise {clears inits : Prop} (a : Byte) {m : Byte} (hm : m &&& ~~~maskSticky = 0#8) :
    StatusRule clears inits a (a ||| m) := by
  obtain ⟨h0, h4⟩ : m.getLsbD 0 = false ∧ m >>> 4 = 0#8 := by
    revert m
    decide
  refine ⟨fun _ k _ _ h => ?_, fun h => ?_, fun h => .inl ?_, ?_⟩
  · rw [BitVec.getLsbD_or, h, Bool.true_or]
  · rw [BitVec.getLsbD_or, h, Bool.true_or]
  · rwa [BitVec.getLsbD_or, h0, Bool.or_false] at h
  · rw [BitVec.ushiftRight_or_distrib, h4, BitVec.or_zero]

theorem statusRule_init (clears : Prop) (a : Byte) : StatusRule clears True a (a ||| maskInitd) := by
  refine ⟨fun _ k _ _ h => by simp [h], fun h => by simp [h], fun _ => .inr trivial, ?_⟩
  rw [BitVec.ushiftRight_or_distrib]
  exact BitVec.or_zero

theorem statusRule_clrst (inits : Prop) (a : Byte) : StatusRule True inits a (a &&& ~~~maskSticky) := by
  refine ⟨fun h => absurd trivial h, fun h => by simp [h, maskSticky], fun h => .inl (by simpa [maskSticky] using h), ?_⟩
  revert a
  decide

theorem warn_sticky {m : Byte} (hm : m = 0#8 ∨ m = maskWarn) : m &&& ~~~maskSticky = 0#8 := by
  rcases hm with rfl | rfl <;> rfl

theorem plot_statusRule {clears inits : Prop} (ps : List (Int × Int)) (v : Bool) (s : State) :
    StatusRule clears inits s.status (plot ps v s).status := by
  obtain ⟨m, hm, hs, -⟩ := plot_raises ps v s
  rw [hs]
  exact .raise _ (warn_sticky hm)

theorem commandRule_statusRule (i : Instr) (s : State) :
    StatusRule (i = .clrst) (i = .init) s.status (commandRule i s).status := by
  cases i with
  | init => simpa [commandRule] using statusRule_init _ s.status
  | clrst => simpa [commandRule] using statusRule_clrst _ s.status
  | fbget row col =>
    simp only [commandRule, readPixel]
    split
    · exact .refl _ _ _
    · exact .raise _ (warn_sticky (.inr rfl))
  | fbset row col v =>
    simp only [commandRule, fbSet_eq_plot]
    exact plot_statusRule _ v (s.setRsp 0x00#8)
  | setpix row col v =>
    simp only [commandRule, refresh_status, fbSet_eq_plot]
    exact plot_statusRule _ v (s.setRsp 0x00#8)
  | rect x y w ht v =>
    simp only [commandRule, setRsp_status, refresh_status]
    exact plot_statusRule _ v s
  | txwrite addr d =>
    simp only [commandRule]
    split <;> exact .refl _ _ _
  | line r0 c0 r1 c1 =>
    simp only [commandRule]
    obtain ⟨-, ps, h⟩ | ⟨-, h⟩ := drawLine_cases (int8 r0) (int8 c0) (int8 r1) (int8 c1) (s.setRsp 0x00#8)
    · rw [h, refresh_status]
      exact plot_statusRule ps true (s.setRsp 0x00#8)
    · rw [h]
      exact .refl _ _ _
  | rdst | fbclr | fbload | refresh | pwron | image | window =>
    simp only [commandRule, setRsp_status, clearFb_status, setFb_status, refresh_status, powerOn_status]
    exact .refl _ _ _

theorem containNoInit_statusRule (clears inits : Prop) (s : State) :
    StatusRule clears inits s.status (containNoInit s).status :=
  .raise s.status rfl

theorem containIllegal_statusRule (clears inits : Prop) (s : State) :
    StatusRule clears inits s.status (containIllegal s).status :=
  .raise s.status rfl

theorem exec_statusRule {i : Instr} {s t : State} (h : exec i s = .next t) :
    StatusRule (i = .clrst) (i = .init) s.status t.status := by
  obtain ⟨-, rfl⟩ | ⟨-, rfl⟩ := exec_cases h
  · exact containNoInit_statusRule _ _ s
  · exact commandRule_statusRule i s

theorem runPacket_statusRule {packet : List Byte} {s t : State} (h : runPacket packet s = .next t) :
    StatusRule (decode packet = .ok .clrst) (decode packet = .ok .init) s.status t.status := by
  obtain ⟨i, hd, hx⟩ | ⟨-, rfl⟩ := runPacket_cases h
  · rw [hd]
    exact (exec_statusRule hx).mono (congrArg _) (congrArg _)
  · exact containIllegal_statusRule _ _ s

/-! ### The step, by what the host presents -/

theorem step_presents {s : State} {packet : List Byte} {rest : List HostMove} (h : Presents s packet rest) :
    step s = runPacket packet { s with packet := [], input := rest } := by
  rw [step, nextEvent_presents h]

theorem step_cutsShort {s : State} {rest : List HostMove} (h : CutsShort s rest) :
    step s = .next (busyReset { s with input := rest }) := by
  rw [step, nextEvent_cutsShort h]

theorem step_resetsIdle {s : State} {rest : List HostMove} (h : ResetsIdle s rest) :
    step s = .next (idleReset { s with input := rest }) := by
  rw [step, nextEvent_resetsIdle h]

theorem step_quiet {s : State} {bs : List Byte} (h : unmarkedBytes s.input = some bs) :
    step s = .next { s with packet := s.packet ++ bs, input := [] } := by
  rw [step, nextEvent_quiet h]

/-- A reset, busy or idle, leaves `STATUS` zero (R170). -/
theorem status_of_resets {s t : State} (hr : Resets s) (h : step s = .next t) : t.status = 0x00#8 := by
  obtain ⟨rest, hc | hi⟩ := hr
  · rw [step_cutsShort hc] at h
    exact Host.Outcome.next.inj h ▸ rfl
  · rw [step_resetsIdle hi] at h
    exact Host.Outcome.next.inj h ▸ rfl

/-- A step that is no reset changes `STATUS` by the rule of the packet it runs, or not at all. -/
theorem step_statusRule {s t : State} (hr : ¬Resets s) (h : step s = .next t) :
    StatusRule (∃ packet rest, Presents s packet rest ∧ decode packet = .ok .clrst)
      (∃ packet rest, Presents s packet rest ∧ decode packet = .ok .init) s.status t.status := by
  obtain ⟨packet, rest, hp, hx⟩ | ⟨rest, hc, -⟩ | ⟨rest, hi, -⟩ | ⟨bs, -, rfl⟩ := step_cases s t h
  · exact (runPacket_statusRule hx).mono (fun hd => ⟨packet, rest, hp, hd⟩) fun hd => ⟨packet, rest, hp, hd⟩
  · exact absurd ⟨rest, .inl hc⟩ hr
  · exact absurd ⟨rest, .inr hi⟩ hr
  · exact .refl _ _ _

/-! ### The link and the sink -/

/-- INIT's two line writes do nothing to an idle link (R120). -/
theorem emit_leadingWrites (i : Instr) (s : State) (h : LinkIdle s) :
    (emit (leadingWrites i) s).lines = s.lines ∧ (emit (leadingWrites i) s).far = s.far := by
  obtain ⟨hl, hs, -⟩ := h
  by_cases hi : i = .init
  · have hf : farAt true true s.far.rx.phase s.far.rx.frames s.far.sink = s.far := by
      have hs' : s.far.rx.lines = { clk := true, dio := true } := hs
      rw [farAt, ← hs']
    rw [leadingWrites, if_pos hi, emit_lines, emit_far, hl]
    exact ⟨rfl, by rw [← hf, steps_bothHigh]⟩
  · rw [leadingWrites, if_neg hi, emit_nil]
    exact ⟨rfl, rfl⟩

/-- Whole frames on an idle link, after INIT's line writes or none: the link is idle again, the receiver has read exactly the
frames, and the sink has taken each (R105, R112). -/
theorem linkIdle_of_pinWrites {i : Instr} {fs : List (List Byte)} {s t : State} (h : LinkIdle s)
    (hw : PinWrites s t (leadingWrites i ++ framesWrites fs)) :
    LinkIdle t ∧ t.far.rx.frames = s.far.rx.frames ++ fs ∧ t.far.sink = fs.foldl Sink.takeFrame s.far.sink := by
  obtain ⟨hlines, -, hfar⟩ := hw
  obtain ⟨hel, hef⟩ := emit_leadingWrites i s h
  have hu : LinkIdle (emit (leadingWrites i) s) := ⟨hel.trans h.lines, hef ▸ h.seen, hef ▸ h.closed⟩
  obtain ⟨⟨hl, hs, hc⟩, hfr, hsk⟩ := emit_frames fs _ hu
  rw [emit_lines, emit_lines, ← writeAll_append, ← hlines] at hl
  rw [emit_far, emit_far, ← steps_append, ← hfar] at hs hc hfr hsk
  rw [emit_far] at hef
  rw [hef] at hfr hsk
  exact ⟨⟨hl, hs, hc⟩, hfr, hsk⟩

/-- The sink runs, and its display memory is canonical (R36, R37). -/
def SinkRuns (k : Sink) : Prop := Memory.wf k.dm ∧ k.stopped = false

theorem sinkRuns_write3 (k : Sink) (hk : SinkRuns k) (addr : Byte) (data : List Byte) (hfit : addr.toNat + data.length ≤ 16)
    (hn : data ≠ []) : SinkRuns ((write3Frames addr data).foldl Sink.takeFrame k) := by
  obtain ⟨k', rfl, hrun, hwf, -⟩ := write3_sink k hk.2 hk.1 addr data hfit hn
  exact ⟨hwf, hrun⟩

theorem sinkRuns_refreshFrames (k : Sink) (hk : SinkRuns k) (fb : Bytes16) :
    SinkRuns ((refreshFrames fb).foldl Sink.takeFrame k) := by
  have hlen : fb.toList.length = 16 := by simp
  rw [refreshFrames_eq]
  exact sinkRuns_write3 k hk _ _ (by rw [hlen]; decide) (List.ne_nil_of_length_pos (by omega))

theorem sinkRuns_clearFrames (k : Sink) (hk : SinkRuns k) : SinkRuns (clearFrames.foldl Sink.takeFrame k) := by
  rw [clearFrames_eq, powerOnFrames, List.foldl_cons, takeFrame_displayOn k hk.2]
  exact sinkRuns_write3 { k with dispOn := .held true } hk 0x00#8 (List.replicate 16 0x00#8) (by decide) (by decide)

/-- No command sends a frame outside R37. -/
theorem sinkRuns_commandFrames (i : Instr) (fb : Bytes16) (k : Sink) (hk : SinkRuns k) :
    SinkRuns ((commandFrames i fb).foldl Sink.takeFrame k) := by
  cases i with
  | init | pwron => exact sinkRuns_clearFrames k hk
  | rdst | clrst | fbget | fbset | fbclr | fbload => exact hk
  | refresh | setpix | rect | image | window => exact sinkRuns_refreshFrames k hk fb
  | line r0 c0 r1 c1 =>
    rw [commandFrames]
    split
    · exact sinkRuns_refreshFrames k hk fb
    · exact hk
  | txwrite addr d =>
    rw [commandFrames]
    split
    · exact hk
    · rename_i hfit
      exact sinkRuns_write3 k hk addr d (by omega) (List.ne_nil_of_length_pos (by omega))

/-! ### The invariant -/

theorem reserved_iff (b : Byte) : b &&& 0xF0#8 = 0#8 ↔ b >>> 4 = 0#8 := by
  revert b
  decide

/-- An answered command keeps the invariant: whole frames the sink has a rule for, the reserved bits as they were, one more
response with bits 7:4 zero. -/
theorem machineInv_of_answer {i : Instr} {fs : List (List Byte)} {s t : State} (h : MachineInv s)
    (hw : PinWrites s t (leadingWrites i ++ framesWrites fs)) (hsink : SinkRuns (fs.foldl Sink.takeFrame s.far.sink))
    (hst : t.status >>> 4 = s.status >>> 4) (b : Byte) (hrs : t.rs = s.rs ++ [b]) (hb : b &&& 0xF0#8 = 0#8) :
    MachineInv t := by
  obtain ⟨hlink, -, hsk⟩ := linkIdle_of_pinWrites h.link hw
  rw [← hsk] at hsink
  refine ⟨hlink, ?_, ?_, ?_, hsink.1, hsink.2⟩
  · obtain ⟨hl, htr, -⟩ := hw
    rw [htr, writeAll_append, h.traced, hl]
  · rw [reserved_iff, hst, ← reserved_iff]
    exact h.reserved
  · rw [hrs]
    exact List.forall_mem_append.mpr ⟨h.responses, List.forall_mem_singleton.mpr hb⟩

theorem sinkRuns_of_machineInv {s : State} (h : MachineInv s) : SinkRuns s.far.sink := ⟨h.canonical, h.running⟩

/-- A contained packet has no pin write: the case of `machineInv_of_answer` with no frame. -/
theorem machineInv_of_contained {s t : State} (h : MachineInv s) (hw : PinWrites s t [])
    (hst : t.status >>> 4 = s.status >>> 4) (b : Byte) (hrs : t.rs = s.rs ++ [b]) (hb : b &&& 0xF0#8 = 0#8) :
    MachineInv t :=
  machineInv_of_answer h (i := .rdst) (fs := []) hw (sinkRuns_of_machineInv h) hst b hrs hb

theorem machineInv_containNoInit {s : State} (h : MachineInv s) : MachineInv (containNoInit s) :=
  machineInv_of_contained h (pinWrites_nil rfl rfl rfl) (containNoInit_statusRule True True s).reserved maskNoInit rfl (by decide)

theorem machineInv_containIllegal {s : State} (h : MachineInv s) : MachineInv (containIllegal s) :=
  machineInv_of_contained h (pinWrites_nil rfl rfl rfl) (containIllegal_statusRule True True s).reserved maskIll rfl (by decide)

theorem exec_keeps_machineInv {i : Instr} {s t : State} (h : MachineInv s) (hx : exec i s = .next t) : MachineInv t := by
  have hst := (exec_statusRule hx).reserved
  obtain ⟨-, rfl⟩ | ⟨-, rfl⟩ := exec_cases hx
  · exact machineInv_containNoInit h
  · exact machineInv_of_answer h (commandRule_pinWrites i s) (sinkRuns_commandFrames i _ _ (sinkRuns_of_machineInv h)) hst _
      (by rw [respond_rs, commandRule_rs]) (commandRule_rsp_high i s)

/-- The invariant does not speak of the command port. -/
theorem machineInv_withPort {s : State} (h : MachineInv s) (packet : List Byte) (input : List HostMove) :
    MachineInv { s with packet := packet, input := input } :=
  ⟨⟨h.link.lines, h.link.seen, h.link.closed⟩, h.traced, h.reserved, h.responses, h.canonical, h.running⟩

theorem runPacket_keeps_machineInv {packet : List Byte} {s t : State} (h : MachineInv s)
    (hx : runPacket packet s = .next t) : MachineInv t := by
  obtain ⟨i, -, hi⟩ | ⟨-, rfl⟩ := runPacket_cases hx
  · exact exec_keeps_machineInv h hi
  · exact machineInv_containIllegal h

/-- Reset while idle: the link and the sink stay as the invariant has them (R170, R181). -/
theorem machineInv_idleReset {s : State} (h : MachineInv s) : MachineInv (idleReset s) :=
  ⟨⟨rfl, rfl, h.link.closed⟩, rfl, (by decide : 0x00#8 &&& 0xF0#8 = 0#8), (fun _ hb => nomatch hb), h.canonical,
    h.running⟩

/-- Reset while busy: the receiver's position is unknown, the display memory lists nothing, the sink runs on (R172). -/
theorem machineInv_busyReset {s : State} (h : MachineInv s) : MachineInv (busyReset s) :=
  ⟨⟨rfl, rfl, .inr rfl⟩, rfl, (by decide : 0x00#8 &&& 0xF0#8 = 0#8), (fun _ hb => nomatch hb), wf_nil, h.running⟩

/-- Settles O38, by the invariant's lemma for each thing a step can do. -/
theorem everyStepKeepsInvariant : Obligations.EveryStepKeepsInvariant := by
  intro s t h hstep
  obtain ⟨packet, rest, -, hx⟩ | ⟨rest, -, rfl⟩ | ⟨rest, -, rfl⟩ | ⟨bs, -, rfl⟩ := step_cases s t hstep
  · exact runPacket_keeps_machineInv (machineInv_withPort h [] rest) hx
  · exact machineInv_busyReset (machineInv_withPort h s.packet rest)
  · exact machineInv_idleReset (machineInv_withPort h s.packet rest)
  · exact machineInv_withPort h _ _

/-! ### The command port -/

/-- Settles O10: moves that only add bytes amount to the quiet event, by `nextEvent_quiet`. -/
theorem partOfAPacketWaits : Obligations.PartOfAPacketWaits :=
  fun _ _ h => step_quiet h

/-- Settles O6: the moves amount to the packet, by `nextEvent_presents`, and the packet runs what it decodes to. -/
theorem stepRunsTheDecodedInstruction : Obligations.StepRunsTheDecodedInstruction := by
  intro s packet rest i hp hd
  rw [step_presents hp, runPacket, hd]

/-! ### The frame buffer and the flags -/

/-- Settles O32: the gate leaves the buffer, and so does the rule of a command that does not draw. -/
theorem onlyDrawingCommandsWriteFrameBuffer : Obligations.OnlyDrawingCommandsWriteFrameBuffer := by
  intro i s t hi hx
  obtain ⟨-, rfl⟩ | ⟨-, rfl⟩ := exec_cases hx
  · rfl
  · exact commandRule_fb i s hi

/-- Settles O33, from the rule `STATUS` follows through a command and through a step that is no reset. -/
theorem statusFlagsAreSticky : Obligations.StatusFlagsAreSticky := by
  refine ⟨fun i s t hx => ?_, fun s t hstep => ?_⟩
  · obtain ⟨hsticky, hinitd, hrises, hreserved⟩ := exec_statusRule hx
    exact ⟨hsticky, hinitd, hrises, hreserved⟩
  · refine ⟨fun hr hc => ?_, fun hr => (step_statusRule hr hstep).initd, fun ht => ?_,
      fun hr => (step_statusRule hr hstep).reserved, fun hr => status_of_resets hr hstep⟩
    · exact (step_statusRule hr hstep).sticky fun ⟨packet, rest, hp, hd⟩ => hc packet rest hp hd
    · by_cases hr : Resets s
      · rw [State.initd, status_of_resets hr hstep] at ht
        exact absurd ht (by decide)
      · exact (step_statusRule hr hstep).rises ht

/-! ### What no rule reads -/

/-- `s` with another `STATUS` and another far end. -/
def State.withSides (b : Byte) (e : FarEnd) (s : State) : State := { s with status := b, far := e }

/-- `f` reads neither `STATUS` nor the far end: other values there only lead to other values there, each from its own. -/
def Blind (f : State → State) : Prop :=
  ∀ s, ∃ (σ : Byte → Byte) (φ : FarEnd → FarEnd), ∀ b e,
    f (s.withSides b e) = (f s).withSides (σ b) (φ e)

theorem Blind.comp {f g : State → State} (hg : Blind g) (hf : Blind f) : Blind fun s => g (f s) := by
  intro s
  obtain ⟨σ, φ, h⟩ := hf s
  obtain ⟨σ', φ', h'⟩ := hg (f s)
  exact ⟨fun b => σ' (σ b), fun e => φ' (φ e), fun b e => (congrArg g (h b e)).trans (h' _ _)⟩

theorem blind_id : Blind fun s => s := fun _ => ⟨id, id, fun _ _ => rfl⟩
theorem blind_setRsp (r : Byte) : Blind (State.setRsp r) := fun _ => ⟨id, id, fun _ _ => rfl⟩
theorem blind_raiseFlag (m : Byte) : Blind (State.raiseFlag m) := fun _ => ⟨(· ||| m), id, fun _ _ => rfl⟩
theorem blind_clearSticky : Blind State.clearSticky := fun _ => ⟨(· &&& ~~~maskSticky), id, fun _ _ => rfl⟩
theorem blind_warn : Blind State.warn := fun _ => ⟨(· ||| maskWarn), id, fun _ _ => rfl⟩
theorem blind_setFb (v : Bytes16) : Blind (State.setFb v) := fun _ => ⟨id, id, fun _ _ => rfl⟩
theorem blind_writePixel (r c : Nat) (v : Bool) : Blind fun s => s.writePixel r c v := fun _ => ⟨id, id, fun _ _ => rfl⟩
theorem blind_emit (ws : List PinWrite) : Blind (emit ws) := fun _ => ⟨id, (·.steps ws), fun _ _ => rfl⟩
theorem blind_respond : Blind respond := fun _ => ⟨id, id, fun _ _ => rfl⟩
theorem blind_refresh : Blind refresh := fun s => by
  obtain ⟨σ, φ, h⟩ := blind_emit (write3 0x00#8 s.fb.toList) s
  exact ⟨σ, φ, h⟩
theorem blind_powerOn : Blind powerOn := blind_emit _

theorem blind_containNoInit : Blind containNoInit :=
  blind_respond.comp ((blind_setRsp maskNoInit).comp (blind_raiseFlag maskNoInit))

theorem blind_containIllegal : Blind containIllegal :=
  blind_respond.comp ((blind_setRsp maskIll).comp (blind_raiseFlag maskIll))

theorem blind_fbSet (row col : Int) (v : Bool) : Blind (fbSet row col v) := by
  unfold fbSet
  cases inRange row col
  · exact blind_warn
  · exact blind_writePixel _ _ v

theorem blind_plot (ps : List (Int × Int)) (v : Bool) : Blind (plot ps v) := by
  induction ps with
  | nil => exact blind_id
  | cons p ps ih => exact ih.comp (blind_fbSet p.1 p.2 v)

theorem blind_readPixel (row col : Int) : Blind (readPixel row col) := by
  unfold readPixel
  cases inRange row col
  · exact (blind_setRsp maskWarn).comp blind_warn
  · exact fun _ => ⟨id, id, fun _ _ => rfl⟩

theorem blind_drawLine (r0 c0 r1 c1 : Int) : Blind (drawLine r0 c0 r1 c1) := by
  unfold drawLine
  split
  · exact blind_refresh.comp (blind_plot _ true)
  · split
    · exact blind_refresh.comp (blind_plot _ true)
    · exact blind_id

/-- Only RDST's rule reads `STATUS`, and none reads the far end. -/
theorem blind_commandRule (i : Instr) (hi : i ≠ .rdst) : Blind (commandRule i) := by
  cases i with
  | rdst => exact absurd rfl hi
  | init =>
    exact (blind_setRsp _).comp ((blind_raiseFlag _).comp (blind_powerOn.comp ((blind_setFb _).comp (blind_emit _))))
  | clrst => exact (blind_setRsp _).comp blind_clearSticky
  | fbget row col => exact blind_readPixel _ _
  | fbset row col v => exact (blind_fbSet _ _ v).comp (blind_setRsp _)
  | fbclr | fbload p => exact (blind_setRsp _).comp (blind_setFb _)
  | refresh => exact (blind_setRsp _).comp blind_refresh
  | pwron => exact (blind_setRsp _).comp blind_powerOn
  | txwrite addr d =>
    simp only [commandRule]
    cases malformedWrite addr d
    · exact (blind_emit _).comp (blind_setRsp _)
    · exact blind_setRsp _
  | setpix row col v => exact blind_refresh.comp ((blind_fbSet _ _ v).comp (blind_setRsp _))
  | rect x y w ht v => exact (blind_setRsp _).comp (blind_refresh.comp (blind_plot _ v))
  | line r0 c0 r1 c1 => exact (blind_drawLine _ _ _ _).comp (blind_setRsp _)
  | image p | window p => exact (blind_setRsp _).comp (blind_refresh.comp (blind_setFb _))

/-- A blind update of a state with another `STATUS` differs in `STATUS` alone. -/
theorem Blind.withStatus {f : State → State} (hf : Blind f) (s : State) (b : Byte) :
    ∃ b', f { s with status := b } = { f s with status := b' } := by
  obtain ⟨σ, φ, h⟩ := hf s
  have hfar : (f s).far = φ s.far := congrArg State.far (h s.status s.far)
  exact ⟨σ b, (h b s.far).trans (by rw [← hfar]; rfl)⟩

/-- A blind update of a state with another far end differs in the far end alone. -/
theorem Blind.withFar {f : State → State} (hf : Blind f) (s : State) (e : FarEnd) :
    ∃ e', f { s with far := e } = { f s with far := e' } := by
  obtain ⟨σ, φ, h⟩ := hf s
  have hst : (f s).status = σ s.status := congrArg State.status (h s.status s.far)
  exact ⟨φ e, (h s.status e).trans (by rw [← hst]; rfl)⟩

/-- The gate reads `INITD` alone of what may differ. -/
theorem exec_congr_gate {i : Instr} {s s' t : State} (hg : s'.initd = s.initd) (h : exec i s = .next t) :
    (t = containNoInit s ∧ exec i s' = .next (containNoInit s')) ∨
      (t = respond (commandRule i s) ∧ exec i s' = .next (respond (commandRule i s'))) := by
  have hiff : GateShut i s' ↔ GateShut i s := by rw [GateShut, GateShut, hg]
  obtain ⟨hs, rfl⟩ | ⟨hs, rfl⟩ := exec_cases h
  · exact .inl ⟨rfl, exec_shut (hiff.mpr hs)⟩
  · exact .inr ⟨rfl, exec_open (hiff.not.mpr hs)⟩

/-- Settles O34: at the gate `INITD` decides alike, and the rule and the response are blind to `STATUS`; RDST, whose rule is
not, still changes only the response. -/
theorem stickyFlagsNeverBlock : Obligations.StickyFlagsNeverBlock := by
  intro i s t b hb hx
  obtain ⟨rfl, hx'⟩ | ⟨rfl, hx'⟩ := exec_congr_gate (s' := { s with status := b }) hb hx <;>
    refine ⟨_, hx', ?_⟩
  · exact ⟨rfl, rfl, rfl, rfl, rfl, rfl, fun _ => rfl⟩
  · by_cases hi : i = .rdst
    · subst hi
      exact ⟨rfl, rfl, rfl, rfl, rfl, rfl, fun h => absurd rfl h⟩
    · obtain ⟨b', h⟩ := (blind_respond.comp (blind_commandRule i hi)).withStatus s b
      rw [h]
      exact ⟨rfl, rfl, rfl, rfl, rfl, rfl, fun _ => rfl⟩

theorem sameBlock_withFar (s : State) (e : FarEnd) : SameBlock s { s with far := e } :=
  ⟨rfl, rfl, rfl, rfl, rfl, rfl, rfl, rfl⟩

theorem Blind.sameBlock {f : State → State} (hf : Blind f) (s : State) (e : FarEnd) :
    SameBlock (f s) (f { s with far := e }) := by
  obtain ⟨e', h⟩ := hf.withFar s e
  rw [h]
  exact sameBlock_withFar _ _

theorem exec_sameBlock {i : Instr} {s t : State} (e : FarEnd) (hx : exec i s = .next t) :
    ∃ t', exec i { s with far := e } = .next t' ∧ SameBlock t t' := by
  obtain ⟨rfl, hx'⟩ | ⟨rfl, hx'⟩ := exec_congr_gate (s := s) (s' := { s with far := e }) rfl hx <;>
    refine ⟨_, hx', ?_⟩
  · exact blind_containNoInit.sameBlock s e
  · by_cases hi : i = .rdst
    · subst hi
      exact sameBlock_withFar _ e
    · exact (blind_respond.comp (blind_commandRule i hi)).sameBlock s e

theorem runPacket_sameBlock {packet : List Byte} {s t : State} (e : FarEnd) (hx : runPacket packet s = .next t) :
    ∃ t', runPacket packet { s with far := e } = .next t' ∧ SameBlock t t' := by
  obtain ⟨i, hd, hi⟩ | ⟨⟨e', hd⟩, rfl⟩ := runPacket_cases hx
  · simp only [runPacket, hd]
    exact exec_sameBlock e hi
  · simp only [runPacket, hd]
    exact ⟨_, rfl, blind_containIllegal.sameBlock s e⟩

/-- Settles O35: the port decides alike, no rule reads the far end, and a reset does not either. -/
theorem blockNeverReadsTheFarEnd : Obligations.BlockNeverReadsTheFarEnd := by
  intro s t f hstep
  obtain ⟨packet, rest, hp, hx⟩ | ⟨rest, hc, rfl⟩ | ⟨rest, hi, rfl⟩ | ⟨bs, hq, rfl⟩ := step_cases s t hstep
  · rw [step_presents (s := { s with far := f }) hp]
    exact runPacket_sameBlock f hx
  · exact ⟨_, step_cutsShort (s := { s with far := f }) hc, rfl, rfl, rfl, rfl, rfl, rfl, rfl, rfl⟩
  · exact ⟨_, step_resetsIdle (s := { s with far := f }) hi, rfl, rfl, rfl, rfl, rfl, rfl, rfl, rfl⟩
  · exact ⟨_, step_quiet (s := { s with far := f }) hq, sameBlock_withFar _ f⟩

/-! ### The sequencer -/

theorem ticks_add (p m n : Nat) (q : Sequencer) : Sequencer.ticks p (m + n) q = Sequencer.ticks p n (Sequencer.ticks p m q) := by
  induction m generalizing q with
  | zero => rw [Nat.zero_add, Sequencer.ticks]
  | succ m ih => rw [Nat.succ_add, Sequencer.ticks, Sequencer.ticks, ih]

/-- Ticks inside a hold only shorten it (R90). -/
theorem ticks_of_le_hold (p n : Nat) (q : Sequencer) (h : n ≤ q.hold) :
    Sequencer.ticks p n q = { q with hold := q.hold - n } := by
  induction n generalizing q with
  | zero => rfl
  | succ n ih =>
    obtain ⟨k, hk⟩ : ∃ k, q.hold = k + 1 := ⟨q.hold - 1, by omega⟩
    have ht : q.tick p = { q with hold := k } := by rw [Sequencer.tick.eq_def, hk]
    rw [Sequencer.ticks, ht, ih _ (by show n ≤ k; omega)]
    simp only [hk, Nat.add_sub_add_right]

theorem tick_load_cons (p : Nat) (w : PinWrite) (ws : List PinWrite) (l : Lines) (tr : List PinWrite) :
    (Sequencer.load (w :: ws) l tr).tick p =
      { pending := ws, hold := p - 1, lines := l.write w, trace := tr ++ [w] } := rfl

/-- Inside the first `p` ticks of a loaded sequencer: the first write is done and its hold is running (R90). -/
theorem ticks_load_cons (p n : Nat) (hn : n < p) (w : PinWrite) (ws : List PinWrite) (l : Lines) (tr : List PinWrite) :
    Sequencer.ticks p (n + 1) (Sequencer.load (w :: ws) l tr) =
      { pending := ws, hold := p - 1 - n, lines := l.write w, trace := tr ++ [w] } := by
  rw [Sequencer.ticks, tick_load_cons, ticks_of_le_hold p n _ (Nat.le_sub_one_of_lt hn)]

/-- One write takes `p` ticks, after which the sequencer is as if loaded with the later ones (R90). -/
theorem ticks_load_write (p : Nat) (hp : 1 ≤ p) (w : PinWrite) (ws : List PinWrite) (l : Lines) (tr : List PinWrite) :
    Sequencer.ticks p p (Sequencer.load (w :: ws) l tr) = Sequencer.load ws (l.write w) (tr ++ [w]) := by
  have h := ticks_load_cons p (p - 1) (by omega) w ws l tr
  rwa [Nat.sub_add_cancel hp, Nat.sub_self] at h

theorem busy_load_cons (p n : Nat) (hn : n < p) (w : PinWrite) (ws : List PinWrite) (l : Lines) (tr : List PinWrite) :
    (Sequencer.ticks p n (Sequencer.load (w :: ws) l tr)).busy = true := by
  cases n with
  | zero => rfl
  | succ n =>
    rw [ticks_load_cons p n (by omega)]
    have : p - 1 - n ≠ 0 := by omega
    simp [Sequencer.busy, this]

/-- Settles O44, by induction on the writes: each takes `tPhase` ticks, all of them busy. -/
theorem sequencerPerformsTheWrites : Obligations.SequencerPerformsTheWrites := by
  intro p ws l tr hp
  induction ws generalizing l tr with
  | nil =>
    rw [List.length_nil, Nat.zero_mul, List.append_nil]
    exact ⟨rfl, fun n hn => absurd hn (Nat.not_lt_zero n)⟩
  | cons w ws ih =>
    obtain ⟨hend, hbusy⟩ := ih (l.write w) (tr ++ [w])
    have hlen : (w :: ws).length * p = p + ws.length * p := by rw [List.length_cons, Nat.succ_mul, Nat.add_comm]
    rw [hlen]
    refine ⟨?_, fun n hn => ?_⟩
    · rw [ticks_add, ticks_load_write p hp, hend, List.append_assoc]
      rfl
    · rcases Nat.lt_or_ge n p with hlt | hge
      · exact busy_load_cons p n hlt w ws l tr
      · obtain ⟨m, rfl⟩ := Nat.exists_eq_add_of_le hge
        rw [ticks_add, ticks_load_write p hp]
        exact hbusy m (by omega)

end Sys2Proof.Machine
end

section
/-! PROOFS of the statements about the display (20_memory.md). What a command puts in the sink is what the sink makes of the
command's frames, `exec_sink`; the statements then follow from what the three-frame write does to a running sink,
`write3_sink`. -/

namespace Sys2Proof.Machine

/-! ### The frames of a command, at the sink -/

/-- A command past the gate, from an idle link, gives the sink exactly its frames (R89, R105, R112). -/
theorem exec_sink {i : Instr} {s t : State} (h : LinkIdle s) (hg : ¬GateShut i s) (hx : exec i s = .next t) :
    t.far.sink = (commandFrames i t.fb).foldl Sink.takeFrame s.far.sink := by
  rw [exec_open hg] at hx
  obtain rfl := Host.Outcome.next.inj hx
  obtain ⟨-, -, hsink⟩ := linkIdle_of_pinWrites h (commandRule_pinWrites i s)
  exact hsink

theorem gate_open_of_initd {i : Instr} {s : State} (h : s.initd = true) : ¬GateShut i s := by simp [GateShut, h]

theorem gate_open_init (s : State) : ¬GateShut .init s := by simp [GateShut, NeedsInit]

theorem commandFrames_of_refreshes {i : Instr} (h : Refreshes i = true) (fb : Bytes16) :
    commandFrames i fb = refreshFrames fb := by
  cases i with
  | refresh | setpix | rect | image | window => rfl
  | line r0 c0 r1 c1 => exact if_pos (of_decide_eq_true h)
  | init | rdst | clrst | fbget | fbset | fbclr | fbload | txwrite | pwron => cases h

/-- A TXWRITE that fits sends its three-frame write (R101, R102). -/
theorem commandFrames_txwrite {addr : Byte} {d : List Byte} (hne : 1 ≤ d.length) (hfit : addr.toNat + d.length ≤ 16)
    (fb : Bytes16) : commandFrames (.txwrite addr d) fb = write3Frames addr d :=
  if_neg (by omega)

theorem autoInc_of_held {k : Sink} {b : Bool} (h : k.ai = .held b) : k.autoInc = b := by rw [Sink.autoInc, h]

theorem displayOn_of_held {k : Sink} {b : Bool} (h : k.dispOn = .held b) : k.displayOn = b := by rw [Sink.displayOn, h]

/-- Sixteen bytes written from address 0 are the whole display memory, in order (R33, R37). -/
theorem read_write3_whole {k : Sink} (hk : SinkRuns k) {data : List Byte} (hlen : data.length = 16) {a : Nat} (ha : a < 16) :
    Memory.read ((write3Frames 0x00#8 data).foldl Sink.takeFrame k).dm a = data[a]? := by
  have hfit : (0x00#8).toNat + data.length ≤ 16 := by rw [hlen]; decide
  obtain ⟨_, rfl, -, -, -, -, -, -, hread⟩ :=
    write3_sink k hk.2 hk.1 0x00#8 data hfit (List.ne_nil_of_length_pos (by omega))
  have hin : (0x00#8).toNat ≤ a ∧ a < (0x00#8).toNat + data.length := hlen ▸ ⟨Nat.zero_le a, ha⟩
  rw [hread, if_pos hin]
  rfl

theorem read_refreshFrames {k : Sink} (hk : SinkRuns k) (fb : Bytes16) {c : Nat} (hc : c < 16) :
    Memory.read ((refreshFrames fb).foldl Sink.takeFrame k).dm c = some (byteAt fb c) := by
  rw [refreshFrames_eq, read_write3_whole hk (by simp) hc, byteAt_eq_getElem fb c hc]
  simp [hc]

/-- The power-on frames are the display-control frame and a three-frame write of zeros, so they leave a running sink on, in
auto-increment and dark (R38, R104). -/
theorem clearFrames_sink {k : Sink} (hk : SinkRuns k) :
    (clearFrames.foldl Sink.takeFrame k).autoInc = true ∧ (clearFrames.foldl Sink.takeFrame k).displayOn = true ∧
      ∀ a < 16, Memory.read (clearFrames.foldl Sink.takeFrame k).dm a = some 0x00#8 := by
  rw [clearFrames_eq, powerOnFrames, List.foldl_cons, takeFrame_displayOn k hk.2]
  have hon : SinkRuns { k with dispOn := .held true } := hk
  obtain ⟨_, rfl, -, -, hai, hdisp, -⟩ :=
    write3_sink _ hon.2 hon.1 0x00#8 (List.replicate 16 0x00#8) (by decide) (by decide)
  refine ⟨autoInc_of_held hai, displayOn_of_held hdisp, fun a ha => ?_⟩
  rw [read_write3_whole hon List.length_replicate ha, List.getElem?_replicate, if_pos ha]

/-! ### A stopped sink -/

theorem takeFrame_of_stopped {k : Sink} (h : k.stopped = true) (bs : List Byte) : k.takeFrame bs = k := by
  rw [Sink.takeFrame.eq_def, if_pos h]

/-- A running sink stops at a frame that meets none of the three arms (R37, last arm). -/
theorem takeFrame_unknown {k : Sink} (h : k.stopped = false) {b0 : Byte} {data : List Byte}
    (hmode : ¬(b0 = opAutoIncrement ∧ data = [])) (hon : ¬(b0 = opDisplayOn ∧ data = []))
    (haddr : ¬(0xC0 ≤ b0.toNat ∧ b0.toNat ≤ 0xCF ∧ k.autoInc = true ∧ b0.toNat - 0xC0 + data.length ≤ 16)) :
    k.takeFrame (b0 :: data) = k.stop := by
  simp only [Sink.takeFrame, h, if_neg hmode, if_neg hon, if_neg haddr, Bool.false_eq_true, if_false]

/-! ### The statements -/

/-- Settles O45: the command sends the refresh frames of the buffer it leaves, and they fill the display memory with it. -/
theorem refreshMirrorsFrameBuffer : Obligations.RefreshMirrorsFrameBuffer := by
  intro i s t hinv hinit hr hx c hc
  rw [exec_sink hinv.link (gate_open_of_initd hinit) hx, commandFrames_of_refreshes hr]
  exact read_refreshFrames (sinkRuns_of_machineInv hinv) t.fb hc

/-- Settles O46, from the three-frame write's effect on a running sink. The address byte `0xC0 + addr` for `addr > 0` is the
spec's general knowledge (U3, log entry 12). -/
theorem txwriteStoresAtItsAddress : Obligations.TxwriteStoresAtItsAddress := by
  intro s t addr d hinv hinit hne hfit hx
  have hsink := exec_sink hinv.link (gate_open_of_initd hinit) hx
  rw [commandFrames_txwrite hne hfit] at hsink
  obtain ⟨_, rfl, -, -, hai, hon, -, hptr, hread⟩ :=
    write3_sink s.far.sink hinv.running hinv.canonical addr d hfit (List.ne_nil_of_length_pos hne)
  rw [hsink]
  refine ⟨fun k hk => ?_, fun a ha => ?_, autoInc_of_held hai, displayOn_of_held hon, hptr⟩
  · rw [hread, if_pos (by omega), Nat.add_sub_cancel_left]
  · rw [hread, if_neg (by omega)]

/-- Settles O47: INIT and PWRON send the power-on frames, whatever the display held. -/
theorem powerOnClearsTheDisplay : Obligations.PowerOnClearsTheDisplay := by
  intro i s t hinv hi hx
  have hsink : t.far.sink = clearFrames.foldl Sink.takeFrame s.far.sink := by
    obtain rfl | ⟨rfl, hinit⟩ := hi
    · exact exec_sink hinv.link (gate_open_init s) hx
    · exact exec_sink hinv.link (gate_open_of_initd hinit) hx
  rw [SinkCleared, hsink]
  exact clearFrames_sink (sinkRuns_of_machineInv hinv)

/-- Settles O48: a running sink stops at the frame, one that had stopped takes none, and either way the sink that is left takes
no more. -/
theorem unknownFrameStopsTheSink : Obligations.UnknownFrameStopsTheSink := by
  intro k b0 data hop haddr
  have hstopped : (k.takeFrame (b0 :: data)).stopped = true := by
    cases hk : k.stopped with
    | true => rw [takeFrame_of_stopped hk, hk]
    | false =>
      rw [takeFrame_unknown hk (fun h => hop (.inl h.1) h.2) (fun h => hop (.inr h.1) h.2) haddr]
      rfl
  exact ⟨hstopped, takeFrame_of_stopped hstopped⟩

end Sys2Proof.Machine
end

section
/-! PROOFS of the statements about the encoding (30_encoding.md). Decoding is characterised twice, each time by one lemma per
operand format of R51 and then by the row of R55: which operand bytes are accepted and what they give (`decode_eq_ok_iff`), and
which are refused (`decode_fails_iff_of_row`). -/

namespace Sys2Proof.Machine

/-! ### The operand formats, accepted -/

theorem decodeState_eq_ok_iff {b : Byte} {v : Bool} : decodeState b = .ok v ↔ b = encodeState v := by
  constructor
  · intro h
    unfold decodeState at h
    split at h
    · cases h; assumption
    · split at h
      · cases h; assumption
      · cases h
  · rintro rfl
    exact decodeState_encodeState v

theorem decodeState_map_eq_ok_iff {b : Byte} {make : Bool → Instr} {i : Instr} :
    (decodeState b).map make = .ok i ↔ ∃ v, b = encodeState v ∧ make v = i := by
  simp only [← decodeState_eq_ok_iff]
  cases decodeState b <;> simp [Except.map]

theorem decodeBare_eq_ok_iff {i j : Instr} {args : List Byte} : decodeBare i args = .ok j ↔ args = [] ∧ i = j := by
  cases args <;> simp [decodeBare]

theorem decodePixelWrite_eq_ok_iff {make : Byte → Byte → Bool → Instr} {args : List Byte} {i : Instr} :
    decodePixelWrite make args = .ok i ↔ ∃ row col v, args = [row, col, encodeState v] ∧ make row col v = i := by
  constructor
  · intro h
    unfold decodePixelWrite at h
    split at h
    · obtain ⟨v, rfl, rfl⟩ := decodeState_map_eq_ok_iff.mp h
      exact ⟨_, _, v, rfl, rfl⟩
    · cases h
  · rintro ⟨row, col, v, rfl, rfl⟩
    exact decodeState_map_eq_ok_iff.mpr ⟨v, rfl, rfl⟩

theorem decodePayload_eq_ok_iff {make : Bytes16 → Instr} {args : List Byte} {i : Instr} :
    decodePayload make args = .ok i ↔ ∃ p : Bytes16, args = p.toList ∧ make p = i := by
  constructor
  · intro h
    unfold decodePayload at h
    split at h
    · cases h
      exact ⟨_, rfl, rfl⟩
    · cases h
  · rintro ⟨p, rfl, rfl⟩
    rw [decodePayload, dif_pos p.length_toList]
    rfl

/-! ### The rows of R55, accepted -/

/-- Operand bytes accepted under an opcode are exactly those of the instruction they give (R51, R58). -/
theorem operandBytes_of_decodeOperands {op : Op} {args : List Byte} {i : Instr} (h : decodeOperands op args = .ok i) :
    i.op = op ∧ i.operandBytes = args ∧ i.wellFormed = true := by
  cases op with
  | init | rdst | clrst | fbclr | refresh | pwron =>
    obtain ⟨rfl, rfl⟩ := decodeBare_eq_ok_iff.mp h
    exact ⟨rfl, rfl, rfl⟩
  | fbset | setpix =>
    obtain ⟨row, col, v, rfl, rfl⟩ := decodePixelWrite_eq_ok_iff.mp h
    exact ⟨rfl, rfl, rfl⟩
  | fbload | image | window =>
    obtain ⟨p, rfl, rfl⟩ := decodePayload_eq_ok_iff.mp h
    exact ⟨rfl, rfl, rfl⟩
  | fbget | line =>
    simp only [decodeOperands] at h
    split at h <;> cases h
    exact ⟨rfl, rfl, rfl⟩
  | rect =>
    simp only [decodeOperands] at h
    split at h
    · obtain ⟨v, rfl, rfl⟩ := decodeState_map_eq_ok_iff.mp h
      exact ⟨rfl, rfl, rfl⟩
    · cases h
  | txwrite =>
    simp only [decodeOperands] at h
    split at h
    · split at h
      next hlen =>
        cases h
        exact ⟨rfl, rfl, decide_eq_true hlen⟩
      next => cases h
    · cases h

/-- The operand bytes of a well-formed instruction are accepted under its opcode and give it back (R51). -/
theorem decodeOperands_operandBytes (i : Instr) (h : i.wellFormed = true) : decodeOperands i.op i.operandBytes = .ok i := by
  cases i with
  | init | rdst | clrst | fbclr | refresh | pwron => rfl
  | fbget row col => rfl
  | line r0 c0 r1 c1 => rfl
  | fbset row col v | setpix row col v => exact decodePixelWrite_eq_ok_iff.mpr ⟨row, col, v, rfl, rfl⟩
  | rect x y w ht v => exact decodeState_map_eq_ok_iff.mpr ⟨v, rfl, rfl⟩
  | fbload p | image p | window p => exact decodePayload_eq_ok_iff.mpr ⟨p, rfl, rfl⟩
  | txwrite addr d => exact if_pos (of_decide_eq_true h)

/-- The family `PacketShape`, of every instruction. -/
theorem packetShape (i : Instr) : Laws.PacketShape.Statement i := by
  cases i with
  | init => exact Laws.PacketShape.init
  | rdst => exact Laws.PacketShape.rdst
  | clrst => exact Laws.PacketShape.clrst
  | fbget row col => exact Laws.PacketShape.fbget row col
  | fbset row col v => exact Laws.PacketShape.fbset row col v
  | fbclr => exact Laws.PacketShape.fbclr
  | fbload p => exact Laws.PacketShape.fbload p
  | refresh => exact Laws.PacketShape.refresh
  | txwrite addr d => exact Laws.PacketShape.txwrite addr d
  | pwron => exact Laws.PacketShape.pwron
  | setpix row col v => exact Laws.PacketShape.setpix row col v
  | rect x y w ht v => exact Laws.PacketShape.rect x y w ht v
  | line r0 c0 r1 c1 => exact Laws.PacketShape.line r0 c0 r1 c1
  | image p => exact Laws.PacketShape.image p
  | window p => exact Laws.PacketShape.window p

/-! ### The packet: too long, reserved, or read by its row -/

theorem decode_overlong {packet : List Byte} (h : 18 < packet.length) : decode packet = .error .overlong := if_pos h

theorem decode_reserved {b : Byte} {args : List Byte} (hlen : (b :: args).length ≤ 18) (hb : Op.ofByte? b = none) :
    decode (b :: args) = .error .reservedOpcode := by
  simp only [decode, if_neg (Nat.not_lt.mpr hlen), hb]

theorem decode_row {op : Op} {args : List Byte} (hlen : (op.byte :: args).length ≤ 18) :
    decode (op.byte :: args) = decodeOperands op args := by
  simp only [decode, if_neg (Nat.not_lt.mpr hlen), ofByte?_byte]

/-- A packet that decodes has an opcode of R55 and is read by its row (R57). -/
theorem row_of_decode {packet : List Byte} {i : Instr} (h : decode packet = .ok i) :
    ∃ op args, packet = op.byte :: args ∧ decodeOperands op args = .ok i := by
  have hlen : packet.length ≤ 18 := by
    by_contra hlong
    rw [decode_overlong (Nat.not_le.mp hlong)] at h
    cases h
  cases packet with
  | nil => cases h
  | cons b args =>
    cases hb : Op.ofByte? b with
    | none =>
      rw [decode_reserved hlen hb] at h
      cases h
    | some op =>
      obtain rfl := byte_of_ofByte? b op hb
      exact ⟨op, args, rfl, (decode_row hlen).symm.trans h⟩

theorem decode_encode (i : Instr) (h : i.wellFormed = true) : decode (encode i) = .ok i := by
  obtain ⟨-, hlen, -⟩ := packetShape i h
  exact (decode_row hlen).trans (decodeOperands_operandBytes i h)

/-- What `decode` accepts, and what it gives: the packets of the well-formed instructions (R51, R55, R58). -/
theorem decode_eq_ok_iff {packet : List Byte} {i : Instr} : decode packet = .ok i ↔ encode i = packet ∧ i.wellFormed = true := by
  constructor
  · intro h
    obtain ⟨op, args, rfl, hargs⟩ := row_of_decode h
    obtain ⟨rfl, rfl, hwf⟩ := operandBytes_of_decodeOperands hargs
    exact ⟨rfl, hwf⟩
  · rintro ⟨rfl, hwf⟩
    exact decode_encode i hwf

/-- Settles O1: the packet is read by its own row, and each operand format reads back what it lays out. -/
theorem decodeOfEncodeIsTheInstruction : Obligations.DecodeOfEncodeIsTheInstruction := decode_encode

/-- Settles O2: `decode` accepts only encodings, and two instructions with one packet are both what it decodes to. -/
theorem legalPacketIsTheEncoding : Obligations.LegalPacketIsTheEncoding := by
  intro packet i h
  obtain ⟨henc, hwf⟩ := decode_eq_ok_iff.mp h
  refine ⟨henc, hwf, fun j hj hje => ?_⟩
  have hj : decode packet = .ok j := decode_eq_ok_iff.mpr ⟨hje, hj⟩
  exact Except.ok.inj (hj.symm.trans h)

/-! ### The operand formats, refused -/

/-- The answer is a refusal. -/
def Fails {α : Type} (r : Except Illegal α) : Prop := ∃ e, r = .error e

@[simp] theorem fails_error {α : Type} (e : Illegal) : Fails (.error e : Except Illegal α) := ⟨e, rfl⟩

@[simp] theorem not_fails_ok {α : Type} (a : α) : ¬Fails (.ok a : Except Illegal α) := fun ⟨_, h⟩ => nomatch h

/-- A `state` operand that is neither value of R53. -/
def NotAState (b : Byte) : Prop := b ≠ 0x00#8 ∧ b ≠ 0x01#8

theorem decodeState_map_fails_iff (b : Byte) (make : Bool → Instr) : Fails ((decodeState b).map make) ↔ NotAState b := by
  unfold decodeState NotAState
  by_cases h0 : b = 0x00#8
  · simp [h0, Except.map]
  · by_cases h1 : b = 0x01#8 <;> simp [h0, h1, Except.map]

theorem decodeBare_fails_iff (i : Instr) (args : List Byte) : Fails (decodeBare i args) ↔ args.length ≠ 0 := by
  cases args <;> simp [decodeBare]

theorem decodePixelWrite_fails_iff (make : Byte → Byte → Bool → Instr) (args : List Byte) :
    Fails (decodePixelWrite make args) ↔ args.length ≠ 3 ∨ ∃ v, args[2]? = some v ∧ NotAState v := by
  unfold decodePixelWrite
  split
  · simp [decodeState_map_fails_iff]
  next hne =>
    have : args.length ≠ 3 := fun hlen => by
      obtain ⟨row, col, st, rfl⟩ := List.length_eq_three.mp hlen
      exact hne row col st rfl
    simp [this]

theorem decodePayload_fails_iff (make : Bytes16 → Instr) (args : List Byte) :
    Fails (decodePayload make args) ↔ args.length ≠ 16 := by
  unfold decodePayload
  split <;> simp [*]

/-! ### The rows of R55, refused -/

/-- The greatest packet length of a row of R55, which differs from the least for TXWRITE only. `specRow_mem` ties it to
`specRows`. -/
def greatestLength : Op → Nat
  | .txwrite => 18
  | op => op.leastLength

/-- Where in the packet a row of R55 has its `state` operand. `exists_stateRow_iff` ties it to the list in `SpecIllegal`. -/
def stateIndex : Op → Option Nat
  | .fbset => some 3
  | .setpix => some 3
  | .rect => some 5
  | _ => none

/-- A packet of this row is illegal: R58 (c) or (d). `decodeOperands_fails_iff` and `specIllegal_row_iff` tie it to the decoder
and to the spec's words. -/
def RowRefuses (op : Op) (args : List Byte) : Prop :=
  ¬(op.leastLength ≤ (op.byte :: args).length ∧ (op.byte :: args).length ≤ greatestLength op) ∨
    ∃ k, stateIndex op = some k ∧ ∃ v, (op.byte :: args)[k]? = some v ∧ NotAState v

theorem rowRefuses_of_stateIndex_none {op : Op} (h : stateIndex op = none) (args : List Byte) :
    RowRefuses op args ↔ ¬(op.leastLength ≤ args.length + 1 ∧ args.length + 1 ≤ greatestLength op) := by
  simp [RowRefuses, h]

theorem rowRefuses_of_stateIndex {op : Op} {k : Nat} (h : stateIndex op = some (k + 1)) (args : List Byte) :
    RowRefuses op args ↔ ¬(op.leastLength ≤ args.length + 1 ∧ args.length + 1 ≤ greatestLength op) ∨
      ∃ v, args[k]? = some v ∧ NotAState v := by
  simp [RowRefuses, h]

/-- The decoder refuses operand bytes exactly under R58 (c) and (d). -/
theorem decodeOperands_fails_iff (op : Op) (args : List Byte) : Fails (decodeOperands op args) ↔ RowRefuses op args := by
  cases op with
  | init | rdst | clrst | fbclr | refresh | pwron =>
    rw [decodeOperands, decodeBare_fails_iff, rowRefuses_of_stateIndex_none rfl]
    simp only [Op.leastLength, greatestLength]
    omega
  | fbload | image | window =>
    rw [decodeOperands, decodePayload_fails_iff, rowRefuses_of_stateIndex_none rfl]
    simp only [Op.leastLength, greatestLength]
    omega
  | fbset | setpix =>
    rw [decodeOperands, decodePixelWrite_fails_iff, rowRefuses_of_stateIndex (k := 2) rfl]
    refine or_congr_left ?_
    simp only [Op.leastLength, greatestLength]
    omega
  | fbget =>
    rw [rowRefuses_of_stateIndex_none rfl]
    rcases args with _ | ⟨row, _ | ⟨col, _ | ⟨b, rest⟩⟩⟩ <;> simp [decodeOperands, Op.leastLength, greatestLength]
  | line =>
    rw [rowRefuses_of_stateIndex_none rfl]
    rcases args with _ | ⟨r0, _ | ⟨c0, _ | ⟨r1, _ | ⟨c1, _ | ⟨b, rest⟩⟩⟩⟩⟩ <;>
      simp [decodeOperands, Op.leastLength, greatestLength]
  | rect =>
    rw [rowRefuses_of_stateIndex (k := 4) rfl]
    rcases args with _ | ⟨x, _ | ⟨y, _ | ⟨w, _ | ⟨ht, _ | ⟨st, _ | ⟨b, rest⟩⟩⟩⟩⟩⟩ <;>
      simp [decodeOperands, decodeState_map_fails_iff, Op.leastLength, greatestLength]
  | txwrite =>
    rw [rowRefuses_of_stateIndex_none rfl]
    cases args with
    | nil => simp [decodeOperands, Op.leastLength]
    | cons addr d =>
      simp only [decodeOperands, Op.leastLength, greatestLength, List.length_cons]
      split
      · exact iff_of_false (not_fails_ok _) (by omega)
      · exact iff_of_true (fails_error _) (by omega)

theorem greatestLength_le (op : Op) : greatestLength op ≤ 18 := by
  cases op <;> decide

theorem decode_row_fails_iff (op : Op) (args : List Byte) : Fails (decode (op.byte :: args)) ↔ RowRefuses op args := by
  by_cases hlen : (op.byte :: args).length ≤ 18
  · rw [decode_row hlen, decodeOperands_fails_iff]
  · have hgreatest := greatestLength_le op
    exact iff_of_true ⟨_, decode_overlong (Nat.not_le.mp hlen)⟩ (.inl (by omega))

/-! ### The spec's list of illegal packets -/

theorem specRow_mem (op : Op) : (op.byte.toNat, op.leastLength, greatestLength op) ∈ specRows := by
  cases op <;> decide

theorem specRow_eq (op : Op) :
    ∀ row ∈ specRows, op.byte.toNat = row.1 → row = (op.byte.toNat, op.leastLength, greatestLength op) := by
  cases op <;> decide

theorem specRow_has_op : ∀ row ∈ specRows, ∃ op ∈ Op.all, op.byte.toNat = row.1 := by decide

theorem exists_stateRow_iff (op : Op) (P : Nat → Prop) :
    (∃ at_ ∈ [(0x11, 3), (0x30, 3), (0x31, 5)], op.byte.toNat = at_.1 ∧ P at_.2) ↔ ∃ k, stateIndex op = some k ∧ P k := by
  cases op <;> simp [Op.byte, stateIndex]

/-- For an opcode of R55, the spec's conditions come down to (c) and (d) of its own row. -/
theorem specIllegal_row_iff (op : Op) (args : List Byte) : SpecIllegal op.byte args ↔ RowRefuses op args := by
  constructor
  · rintro (hlong | hreserved | ⟨row, hrow, hop, hlen⟩ | hstate)
    · have hgreatest := greatestLength_le op
      exact .inl (by omega)
    · exact absurd rfl (hreserved _ (specRow_mem op))
    · obtain rfl := specRow_eq op row hrow hop
      exact .inl hlen
    · exact .inr ((exists_stateRow_iff op _).mp hstate)
  · rintro (hlen | hstate)
    · exact .inr (.inr (.inl ⟨_, specRow_mem op, rfl, hlen⟩))
    · exact .inr (.inr (.inr ((exists_stateRow_iff op _).mpr hstate)))

/-- A byte that reads as no opcode is reserved in the spec's table too: R58 (b). -/
theorem specIllegal_reserved {b : Byte} (hb : Op.ofByte? b = none) (args : List Byte) : SpecIllegal b args := by
  refine .inr (.inl fun row hrow heq => ?_)
  obtain ⟨op, -, hop⟩ := specRow_has_op row hrow
  obtain rfl : op.byte = b := BitVec.eq_of_toNat_eq (hop.trans heq.symm)
  rw [ofByte?_byte] at hb
  cases hb

theorem decode_reserved_fails {b : Byte} (hb : Op.ofByte? b = none) (args : List Byte) : Fails (decode (b :: args)) := by
  by_cases hlen : (b :: args).length ≤ 18
  · exact ⟨_, decode_reserved hlen hb⟩
  · exact ⟨_, decode_overlong (Nat.not_le.mp hlen)⟩

/-- Settles O3: a reserved opcode is illegal on both sides, and for an opcode of R55 both sides refuse what its row refuses. -/
theorem illegalExactlyAsListed : Obligations.IllegalExactlyAsListed := by
  intro b args
  cases hb : Op.ofByte? b with
  | none => exact iff_of_true (decode_reserved_fails hb args) (specIllegal_reserved hb args)
  | some op =>
    obtain rfl := byte_of_ofByte? b op hb
    exact (decode_row_fails_iff op args).trans (specIllegal_row_iff op args).symm

/-! ### The response byte of every command -/

/-- A run of `fb_set` from a cleared response leaves it clear, or at the warning (R75, R151). -/
theorem plot_rsp_cases (ps : List (Int × Int)) (v : Bool) (s : State) :
    (plot ps v (s.setRsp 0x00#8)).rsp = 0x00#8 ∨ (plot ps v (s.setRsp 0x00#8)).rsp = maskWarn := by
  obtain ⟨m, hm, -, hr⟩ := plot_raises ps v (s.setRsp 0x00#8)
  rwa [hr, setRsp_rsp, BitVec.zero_or]

/-- Every response but RDST's: nothing, the warning alone, or the value of a lit pixel (R56). -/
theorem commandRule_rsp_cases (i : Instr) (s : State) (hi : i ≠ .rdst) :
    ((commandRule i s).rsp = 0x00#8 ∨ (commandRule i s).rsp = maskWarn) ∨
      (commandRule i s).rsp = 0x01#8 ∧
        ∃ row col, i = .fbget row col ∧ s.pixel (int8 row).toNat (int8 col).toNat = true := by
  cases i with
  | rdst => exact absurd rfl hi
  | init | clrst | fbclr | fbload | refresh | pwron | rect | image | window => exact .inl (.inl rfl)
  | txwrite addr d => exact .inl (.inl (by simp only [commandRule]; split <;> rfl))
  | fbset row col v =>
    simp only [commandRule, fbSet_eq_plot]
    exact .inl (plot_rsp_cases _ v s)
  | setpix row col v =>
    simp only [commandRule, refresh_rsp, fbSet_eq_plot]
    exact .inl (plot_rsp_cases _ v s)
  | line r0 c0 r1 c1 =>
    simp only [commandRule]
    obtain ⟨-, ps, h⟩ | ⟨-, h⟩ := drawLine_cases (int8 r0) (int8 c0) (int8 r1) (int8 c1) (s.setRsp 0x00#8)
    · rw [h, refresh_rsp]
      exact .inl (plot_rsp_cases ps true s)
    · rw [h]
      exact .inl (.inl rfl)
  | fbget row col =>
    simp only [commandRule, readPixel]
    split
    · cases hp : s.pixel (int8 row).toNat (int8 col).toNat with
      | true => exact .inr ⟨rfl, row, col, rfl, hp⟩
      | false => exact .inl (.inl rfl)
    · exact .inl (.inr rfl)

/-- Settles O9: at the gate the response is `NOINIT` alone; past it, it is what the command's rule left. -/
theorem oneResponsePerCommand : Obligations.OneResponsePerCommand := by
  intro i s
  by_cases hg : GateShut i s
  · have hexec := exec_shut hg
    obtain ⟨hneeds, hinit⟩ := hg
    refine ⟨_, maskNoInit, hexec, ⟨rfl, rfl⟩, by simp [State.cp, containNoInit], by decide, ?_, ?_⟩
    · rintro rfl
      cases hneeds
    · intro _
      rw [hneeds, hinit]
      exact ⟨rfl, rfl, fun h => nomatch h⟩
  · have hready : (NeedsInit i && !s.initd) = false := by simpa [GateShut] using hg
    have hrs : (respond (commandRule i s)).rs = s.rs ++ [(commandRule i s).rsp] := by rw [respond_rs, commandRule_rs]
    refine ⟨_, _, exec_open hg, ⟨hrs, rfl⟩, by rw [State.cp, hrs, List.length_append]; rfl, commandRule_rsp_high i s, ?_, ?_⟩
    · rintro rfl
      rfl
    · intro hi
      rw [hready]
      obtain (hr | hr) | ⟨hr, hlit⟩ := commandRule_rsp_cases i s hi <;> rw [hr]
      · exact ⟨rfl, rfl, fun h => nomatch h⟩
      · exact ⟨rfl, rfl, fun h => nomatch h⟩
      · exact ⟨rfl, rfl, fun _ => hlit⟩

/-! ### Packets written out, and signed bytes -/

/-- Settles O4: each legal packet is the encoding of its command; `0x55` is in no row of R55. -/
theorem writtenOutPacketsDecode : Obligations.WrittenOutPacketsDecode :=
  ⟨decode_encode .init rfl, decode_encode .rdst rfl, decode_encode (.fbget 2 3) rfl, decode_encode (.fbset 0xFF#8 0 true) rfl,
    decode_encode .refresh rfl, decode_encode (.txwrite 3 [0xAA#8, 0x55#8]) rfl, decode_encode (.rect 2 2 4 3 true) rfl,
    decode_encode (.line 3 0xFB#8 3 0x14#8) rfl, decode_reserved (by decide) (by decide)⟩

theorem int8_of_lt {b : Byte} (h : b.toNat < 128) : int8 b = b.toNat := if_pos h

theorem int8_of_ge {b : Byte} (h : 128 ≤ b.toNat) : int8 b = (b.toNat : Int) - 256 := if_neg (Nat.not_lt.mpr h)

theorem int8_range (b : Byte) : -128 ≤ int8 b ∧ int8 b ≤ 127 := by
  rw [int8_eq_toInt]
  exact ⟨BitVec.le_toInt b, Int.le_sub_one_of_lt BitVec.toInt_lt⟩

/-- Settles O5: the range, and the two halves of the byte. -/
theorem operandIsSignedByte : Obligations.OperandIsSignedByte := fun b =>
  ⟨(int8_range b).1, (int8_range b).2, int8_of_lt, int8_of_ge⟩

theorem int8_ofInt {v : Int} (h : -128 ≤ v ∧ v ≤ 127) : int8 (BitVec.ofInt 8 v) = v := by
  rw [int8_eq_toInt, BitVec.toInt_ofInt, Int.bmod_eq_of_le h.1 (Int.lt_add_one_of_le h.2)]

/-- Settles O51: the operand of an integer in range is its residue, which reads back by `int8_ofInt`. -/
theorem hostOperandReadsBack : Obligations.HostOperandReadsBack := fun _ =>
  ⟨fun h => ⟨_, if_pos h, int8_ofInt h⟩, fun h => if_neg h⟩

end Sys2Proof.Machine
end

section
/-! PROOFS of the statements about the frame-buffer commands (40_framebuffer_ops.md). FBGET and `fb_set` each have an equation
inside the matrix and one outside it; what a command leaves alone is its rule's `KeepsWire`, and the pixels are those of
`pixel_fbSet` and `pixel_unpackImage`. -/

namespace Sys2Proof.Machine

/-! ### A rule that keeps the wire, once it has answered -/

theorem KeepsWire.noPinWrite {s u : State} (k : KeepsWire s u) : NoPinWrite s (respond u) := ⟨k.lines, k.tr, k.far⟩

theorem KeepsWire.portUnchanged {s u : State} (k : KeepsWire s u) : PortUnchanged s (respond u) := ⟨k.packet, k.input⟩

theorem KeepsWire.responded {s u : State} {b : Byte} (k : KeepsWire s u) (h : u.rsp = b) : Responded s (respond u) b :=
  ⟨by rw [respond_rs, k.rs, h], h⟩

theorem KeepsWire.setRsp {s u : State} (k : KeepsWire s u) (b : Byte) : KeepsWire s (u.setRsp b) :=
  ⟨k.lines, k.tr, k.rs, k.packet, k.input, k.far⟩

/-! ### Inside and outside the matrix -/

theorem inRange_eq_false {row col : Int} (h : ¬(0 ≤ row ∧ row ≤ 7 ∧ 0 ≤ col ∧ col ≤ 15)) : inRange row col = false :=
  Bool.eq_false_iff.mpr (mt (inRange_iff row col).mp h)

theorem fbSet_inside {row col : Int} (h : inRange row col = true) (v : Bool) (s : State) :
    fbSet row col v s = s.writePixel row.toNat col.toNat v := if_pos h

theorem fbSet_outside {row col : Int} (h : inRange row col = false) (v : Bool) (s : State) : fbSet row col v s = s.warn :=
  if_neg (Bool.eq_false_iff.mp h)

theorem readPixel_inside {row col : Int} (h : inRange row col = true) (s : State) :
    readPixel row col s = s.setRsp (if s.pixel row.toNat col.toNat then 0x01#8 else 0x00#8) := if_pos h

theorem readPixel_outside {row col : Int} (h : inRange row col = false) (s : State) :
    readPixel row col s = s.warn.setRsp maskWarn := if_neg (Bool.eq_false_iff.mp h)

/-! ### Columns and image payloads -/

theorem column_clearFb (s : State) {c : Nat} (hc : c < 16) : s.clearFb.column c = 0x00#8 := byteAt_replicate _ c hc

theorem pixel_clearFb (s : State) (r : Nat) {c : Nat} (hc : c < 16) : s.clearFb.pixel r c = false := by
  rw [State.pixel, column_clearFb s hc, BitVec.getLsbD_zero]

theorem toList_getD_eq_byteAt (p : Bytes16) (k : Nat) : p.toList.getD k 0x00#8 = byteAt p k := by
  by_cases hk : k < 16
  · rw [byteAt_eq_getElem p k hk]
    simp [hk]
  · simp [byteAt, Vector.getD, hk]

/-- Bit `c` of row `r` lies in byte `2r + c div 8`, which is one of the sixteen and names its row and its half (R74). -/
theorem imageBit_packImage (m : Nat → Nat → Bool) {r c : Nat} (hr : r < 8) (hc : c < 16) :
    imageBit (packImage m) r c = m r c := by
  have hbyte : 2 * r + c / 8 < 16 := by omega
  have hrow : (2 * r + c / 8) / 2 = r := by omega
  have hcol : 8 * ((2 * r + c / 8) % 2) + c % 8 = c := by omega
  rw [imageBit, packImage, byteAt_ofFn _ _ hbyte, getLsbD_byteOfRows _ _ (Nat.mod_lt c (by decide))]
  simp only [hrow, hcol]

/-- FBLOAD leaves the pixels of its payload (R73). -/
theorem pixelsAre_fbload (p : Bytes16) (s : State) :
    PixelsAre (respond ((s.setFb (unpackImage p)).setRsp 0x00#8)) (imageBit p) :=
  fun r hr c hc => pixel_unpackImage p s r c hr hc

/-! ### One pixel, written by FBSET or SETPIX -/

theorem decodeState_bad {b : Byte} (h0 : b ≠ 0x00#8) (h1 : b ≠ 0x01#8) : decodeState b = .error .badState := by
  rw [decodeState, if_neg h0, if_neg h1]

theorem decode_fbset_bad (row col : Byte) {b : Byte} (h0 : b ≠ 0x00#8) (h1 : b ≠ 0x01#8) :
    decode [0x11#8, row, col, b] = .error .badState := by
  have hrow : decode [0x11#8, row, col, b] = (decodeState b).map (.fbset row col) := decode_row (op := .fbset) (Nat.le_of_ble_eq_true rfl)
  rw [hrow, decodeState_bad h0 h1]
  rfl

/-- FBSET and SETPIX leave the buffer of one `fb_set` (R71, R80). -/
theorem exec_pixelWrite {i : Instr} {row col : Byte} {v : Bool} {s : State}
    (hi : i = .fbset row col v ∨ i = .setpix row col v) (h : s.initd = true) :
    ∃ t, exec i s = .next t ∧ t.initd = true ∧ t.fb = (fbSet (int8 row) (int8 col) v (s.setRsp 0x00#8)).fb := by
  obtain ⟨t, hx, hfb⟩ : ∃ t, exec i s = .next t ∧ t.fb = (fbSet (int8 row) (int8 col) v (s.setRsp 0x00#8)).fb := by
    obtain rfl | rfl := hi
    · exact ⟨_, exec_fbset row col v s h, rfl⟩
    · exact ⟨_, exec_setpix row col v s h, by rw [respond_fb, refresh_fb]⟩
  exact ⟨t, hx, (exec_statusRule hx).initd h, hfb⟩

theorem pixel_eq_of_fb_eq {s t : State} (h : t.fb = s.fb) (r c : Nat) : t.pixel r c = s.pixel r c := by
  rw [State.pixel, State.column, h, State.pixel, State.column]

theorem execAll_pair {i j : Instr} {s t u : State} (hi : exec i s = .next t) (hj : exec j t = .next u) :
    execAll [i, j] s = .next u := by
  simp only [execAll, hi, hj]

/-- FBGET inside the matrix answers the pixel and keeps the buffer (R70). -/
theorem exec_fbget_inside {row col : Byte} {s : State} (h : s.initd = true) (hin : inRange (int8 row) (int8 col) = true) :
    ∃ t, exec (.fbget row col) s = .next t ∧ t.fb = s.fb ∧
      t.rsp = if s.pixel (int8 row).toNat (int8 col).toNat then 0x01#8 else 0x00#8 :=
  ⟨_, exec_fbget row col s h, readPixel_fb .., by rw [respond_rsp, readPixel_inside hin, setRsp_rsp]⟩

/-! ### The statements -/

/-- Settles O14: the two branches of `readPixel`, which keeps the buffer and the wire in both. -/
theorem fbgetReadsPixel : Obligations.FbgetReadsPixel := by
  intro s row col hinit
  have k := readPixel_keepsWire (int8 row) (int8 col) s
  refine ⟨decode_encode (.fbget row col) rfl, _, exec_fbget row col s hinit, readPixel_fb _ _ s, k.noPinWrite, k.portUnchanged,
    fun hin => ?_, fun hout => ?_⟩
  · have heq := readPixel_inside ((inRange_iff _ _).mpr hin) s
    exact ⟨by rw [respond_status, heq, setRsp_status], k.responded (heq ▸ rfl)⟩
  · have heq := readPixel_outside (inRange_eq_false hout) s
    exact ⟨by rw [respond_status, heq]; rfl, k.responded (heq ▸ rfl)⟩

/-- Settles O15: the pixels are those of one `fb_set`, which writes nothing else inside the matrix and only warns outside. -/
theorem fbsetWritesPixel : Obligations.FbsetWritesPixel := by
  intro s row col v hinit
  have k := (fbSet_keepsWire (int8 row) (int8 col) v (s.setRsp 0x00#8)).of_setRsp
  refine ⟨decode_encode (.fbset row col v) rfl, fun b => decode_fbset_bad row col, _, exec_fbset row col v s hinit,
    k.noPinWrite, k.portUnchanged, fun r hr c hc => pixel_fbSet _ _ v (s.setRsp 0x00#8) r c hr hc,
    fun hin => ?_, fun hout => ?_⟩
  · have heq := fbSet_inside ((inRange_iff _ _).mpr hin) v (s.setRsp 0x00#8)
    exact ⟨by rw [respond_status, heq]; rfl, k.responded (heq ▸ rfl)⟩
  · have heq := fbSet_outside (inRange_eq_false hout) v (s.setRsp 0x00#8)
    have hrsp : (s.setRsp 0x00#8).warn.rsp = 0x02#8 := by rw [warn_rsp, setRsp_rsp, BitVec.zero_or]; rfl
    exact ⟨by rw [respond_fb, heq]; rfl, by rw [respond_status, heq]; rfl, k.responded (heq ▸ hrsp)⟩

/-- Settles O16: the cleared buffer's columns, and `clearFb` keeps the rest. -/
theorem fbclrZeroesEveryColumn : Obligations.FbclrZeroesEveryColumn := by
  intro s hinit
  have k : KeepsWire s (s.clearFb.setRsp 0x00#8) := (setFb_keepsWire _ s).setRsp _
  exact ⟨decode_encode .fbclr rfl, _, exec_fbclr s hinit, fun c hc => column_clearFb s hc, k.responded rfl, rfl, k.noPinWrite,
    k.portUnchanged⟩

/-- Settles O17: the pixels of the unpacked payload, and `setFb` keeps the rest. -/
theorem fbloadUnpacksImage : Obligations.FbloadUnpacksImage := by
  intro s p hinit
  have k := (setFb_keepsWire (unpackImage p) s).setRsp 0x00#8
  refine ⟨decode_encode (.fbload p) rfl, _, exec_fbload p s hinit, ?_, k.responded rfl, rfl, k.noPinWrite, k.portUnchanged⟩
  simp only [toList_getD_eq_byteAt]
  exact pixelsAre_fbload p s

/-- Settles O18: the payload bits of `pack(m)` are `m`, and they are the pixels FBLOAD leaves. -/
theorem packedImageLoadsAsItsMatrix : Obligations.PackedImageLoadsAsItsMatrix := by
  intro s m hinit
  refine ⟨fun r hr c hc => ?_, _, exec_fbload (packImage m) s hinit, fun r hr c hc => ?_⟩
  · rw [toList_getD_eq_byteAt]
    exact imageBit_packImage m hr hc
  · rw [pixelsAre_fbload (packImage m) s r hr c hc, imageBit_packImage m hr hc]

/-- Settles O19: each write has the buffer of one `fb_set` or is the clear, `INITD` stays, and FBGET reads that buffer. -/
theorem pixelRoundTrip : Obligations.PixelRoundTrip := by
  refine ⟨fun s row col v i hinit hrow hcol hi => ?_, fun s row col hinit hrow hcol => ?_, fun s row col v i hinit hout hi => ?_⟩
  · obtain ⟨t, hx, ht, hfb⟩ := exec_pixelWrite hi hinit
    obtain ⟨u, hget, hufb, hrsp⟩ := exec_fbget_inside ht ((inRange_iff _ _).mpr (and_assoc.mp ⟨hrow, hcol⟩))
    have hpix (r c : Nat) (hr : r < 8) (hc : c < 16) :
        t.pixel r c = if (r : Int) = int8 row ∧ (c : Int) = int8 col then v else s.pixel r c :=
      (pixel_eq_of_fb_eq hfb r c).trans (pixel_fbSet _ _ v (s.setRsp 0x00#8) r c hr hc)
    have hread : t.pixel (int8 row).toNat (int8 col).toNat = v :=
      (hpix _ _ (by omega) (by omega)).trans (if_pos (by omega))
    refine ⟨u, execAll_pair hx hget, by rw [hrsp, hread], fun r c hr hc hne => ?_⟩
    rw [pixel_eq_of_fb_eq hufb, hpix r c hr hc, if_neg hne]
  · have hx := exec_fbclr s hinit
    obtain ⟨u, hget, -, hrsp⟩ := exec_fbget_inside ((exec_statusRule hx).initd hinit)
      ((inRange_iff _ _).mpr (and_assoc.mp ⟨hrow, hcol⟩))
    have hdark : (respond (s.clearFb.setRsp 0x00#8)).pixel (int8 row).toNat (int8 col).toNat = false :=
      pixel_clearFb s _ (by omega)
    exact ⟨u, execAll_pair hx hget, by rw [hrsp, hdark]; rfl⟩
  · obtain ⟨t, hx, -, hfb⟩ := exec_pixelWrite hi hinit
    exact ⟨t, hx, by rw [hfb, fbSet_outside (inRange_eq_false hout)]; rfl⟩

end Sys2Proof.Machine
end

section
/-! PROOFS of the statements about the raster commands (41_raster_ops.md). Each rule is a buffer write `u` that keeps the wire,
then `refresh u`: the wire follows from `KeepsWire` alone, the pixels from `pixel_plot` or `pixel_unpackImage`, and the warning
from which of the plotted pixels lie in the matrix. -/

namespace Sys2Proof.Machine

/-! ### A buffer write and its refresh, once it has answered -/

/-- The refresh of a buffer, frame by frame (R100). -/
theorem write3_zero_eq (data : List Byte) :
    write3 0x00#8 data = frameWrites [0x40#8] ++ frameWrites (0xC0#8 :: data) ++ frameWrites [0x88#8] := by
  rw [write3_eq, opAutoIncrement, opStartAddress, opDisplayOn, BitVec.add_zero, List.append_assoc]

theorem setRsp_emit (ws : List PinWrite) (b : Byte) (s : State) : (emit ws s).setRsp b = emit ws (s.setRsp b) := rfl

theorem setRsp_refresh (b : Byte) (s : State) : (refresh s).setRsp b = refresh (s.setRsp b) := by
  rw [refresh, refresh, setRsp_emit, setRsp_fb]

theorem respond_refresh_fb (s : State) : (respond (refresh s)).fb = s.fb := by rw [respond_fb, refresh_fb]

theorem respond_refresh_status (s : State) : (respond (refresh s)).status = s.status := by rw [respond_status, refresh_status]

theorem pinWrites_respond {s t : State} {ws : List PinWrite} (h : PinWrites s t ws) : PinWrites s (respond t) ws := by
  obtain ⟨hlines, htr, hfar⟩ := h
  exact ⟨hlines, htr, hfar⟩

/-- After a buffer write the wire shows exactly one refresh, of the buffer as the command leaves it (R40, R89). -/
theorem KeepsWire.refreshed_pinWrites {s u : State} {fb : Bytes16} (k : KeepsWire s u) (h : (respond (refresh u)).fb = fb) :
    PinWrites s (respond (refresh u))
      (frameWrites [0x40#8] ++ frameWrites (0xC0#8 :: fb.toList) ++ frameWrites [0x88#8]) := by
  rw [← write3_zero_eq, ← h, respond_refresh_fb]
  exact pinWrites_respond (k.pinWrites (refresh_pinWrites u))

theorem KeepsWire.refreshed_tr_length {s u : State} (k : KeepsWire s u) :
    (respond (refresh u)).tr.length = s.tr.length + 480 := by
  rw [respond_tr, refresh_tr, k.tr, List.length_append, length_write3, Vector.length_toList]

theorem KeepsWire.refreshed_portUnchanged {s u : State} (k : KeepsWire s u) : PortUnchanged s (respond (refresh u)) :=
  ⟨by rw [respond_packet, refresh_packet, k.packet], by rw [respond_input, refresh_input, k.input]⟩

theorem KeepsWire.refreshed_responded {s u : State} {b : Byte} (k : KeepsWire s u) (h : u.rsp = b) :
    Responded s (respond (refresh u)) b :=
  ⟨by rw [respond_rs, refresh_rs, refresh_rsp, k.rs, h], by rw [respond_rsp, refresh_rsp, h]⟩

/-! ### A run of `fb_set`, refreshed -/

/-- A run of `fb_set` sets the pixels of the matrix that its list covers and keeps the others (R75, R82, R84). -/
theorem pixelsAre_plot {ps : List (Int × Int)} {P : Nat → Nat → Prop} [∀ r c, Decidable (P r c)]
    (h : ∀ r c : Nat, r < 8 → c < 16 → (((r : Int), (c : Int)) ∈ ps ↔ P r c)) (v : Bool) (s : State) :
    PixelsAre (plot ps v s) fun r c => if P r c then v else s.pixel r c :=
  fun r hr c hc => (pixel_plot ps v s r c hr hc).trans (by simp only [h r c hr hc])

theorem pixelsAre_of_fb_eq {s t : State} {f : Nat → Nat → Bool} (h : PixelsAre s f) (hfb : t.fb = s.fb) : PixelsAre t f :=
  fun r hr c hc => (pixel_eq_of_fb_eq hfb r c).trans (h r hr c hc)

/-- SETPIX and LINE clear the response before their run of `fb_set`; neither shows on the wire (R80, R84). -/
theorem plot_setRsp_keepsWire (ps : List (Int × Int)) (v : Bool) (b : Byte) (s : State) :
    KeepsWire s (plot ps v (s.setRsp b)) :=
  (plot_keepsWire ps v (s.setRsp b)).of_setRsp

/-- No warning when every pixel is in the matrix (R75, R151). -/
theorem respond_plot_quiet {ps : List (Int × Int)} (h : ∀ p ∈ ps, inRange p.1 p.2 = true) (v : Bool) (s : State) :
    (respond (refresh (plot ps v (s.setRsp 0x00#8)))).status = s.status ∧
      Responded s (respond (refresh (plot ps v (s.setRsp 0x00#8)))) 0x00#8 := by
  obtain ⟨hstatus, hrsp⟩ := flags_plot ps v (s.setRsp 0x00#8)
  rw [if_pos (List.all_eq_true.mpr h)] at hstatus hrsp
  exact ⟨(respond_refresh_status _).trans hstatus, (plot_setRsp_keepsWire ps v _ s).refreshed_responded hrsp⟩

/-- One warning, in `STATUS` and in the response, when some pixel is outside the matrix (R75, R151). -/
theorem respond_plot_warns {ps : List (Int × Int)} (h : ∃ p ∈ ps, inRange p.1 p.2 = false) (v : Bool) (s : State) :
    (respond (refresh (plot ps v (s.setRsp 0x00#8)))).status = s.status ||| 0x02#8 ∧
      Responded s (respond (refresh (plot ps v (s.setRsp 0x00#8)))) 0x02#8 := by
  obtain ⟨hstatus, hrsp⟩ := flags_plot ps v (s.setRsp 0x00#8)
  have hout : ¬(ps.all fun p => inRange p.1 p.2) = true := by
    obtain ⟨p, hp, hf⟩ := h
    exact fun hall => Bool.false_ne_true (hf.symm.trans (List.all_eq_true.mp hall p hp))
  rw [if_neg hout] at hstatus hrsp
  exact ⟨(respond_refresh_status _).trans hstatus,
    (plot_setRsp_keepsWire ps v _ s).refreshed_responded (hrsp.trans BitVec.zero_or)⟩

/-- A rectangle's pixels raise no warning, since they are clipped to the matrix (R82). -/
theorem plot_rectPixels_status (x y w h : Int) (v : Bool) (s : State) : (plot (rectPixels x y w h) v s).status = s.status := by
  obtain ⟨hstatus, -⟩ := flags_plot (rectPixels x y w h) v s
  rw [hstatus, if_pos (rectPixels_inRange x y w h)]

/-! ### The three cases of LINE -/

theorem exec_line_horizontal {r0 r1 : Byte} (c0 c1 : Byte) {s : State} (h : s.initd = true) (hr : int8 r0 = int8 r1) :
    exec (.line r0 c0 r1 c1) s =
      .next (respond (refresh (plot (rowSweep (int8 r0) (int8 c0) (int8 c1)) true (s.setRsp 0x00#8)))) := by
  rw [exec_line r0 c0 r1 c1 s h, drawLine, if_pos hr]

theorem exec_line_vertical {r0 c0 r1 c1 : Byte} {s : State} (h : s.initd = true) (hr : int8 r0 ≠ int8 r1)
    (hc : int8 c0 = int8 c1) :
    exec (.line r0 c0 r1 c1) s =
      .next (respond (refresh (plot (colSweep (int8 c0) (int8 r0) (int8 r1)) true (s.setRsp 0x00#8)))) := by
  rw [exec_line r0 c0 r1 c1 s h, drawLine, if_neg hr, if_pos hc]

theorem exec_line_diagonal {r0 c0 r1 c1 : Byte} {s : State} (h : s.initd = true) (hr : int8 r0 ≠ int8 r1)
    (hc : int8 c0 ≠ int8 c1) : exec (.line r0 c0 r1 c1) s = .next (respond (s.setRsp 0x00#8)) := by
  rw [exec_line r0 c0 r1 c1 s h, drawLine, if_neg hr, if_neg hc]

/-- A swept row lies in the matrix when its row does, or when no column was swept (R84, D30). -/
theorem rowSweep_inRange {r c0 c1 : Int} (h : (0 ≤ r ∧ r ≤ 7) ∨ max c0 c1 < 0 ∨ 15 < min c0 c1) :
    ∀ p ∈ rowSweep r c0 c1, inRange p.1 p.2 = true := by
  rintro ⟨r', c⟩ hp
  rw [mem_rowSweep] at hp
  rw [inRange_iff]
  omega

/-- A row outside leaves the matrix at its first swept column (R84, D30). -/
theorem rowSweep_outside {r c0 c1 : Int} (h : ¬(0 ≤ r ∧ r ≤ 7) ∧ 0 ≤ max c0 c1 ∧ min c0 c1 ≤ 15) :
    ∃ p ∈ rowSweep r c0 c1, inRange p.1 p.2 = false :=
  ⟨(r, max (min c0 c1) 0), (mem_rowSweep ..).mpr (by omega), inRange_eq_false (by omega)⟩

/-- A swept column lies in the matrix when its column does, or when no row was swept (R84, D30). -/
theorem colSweep_inRange {c r0 r1 : Int} (h : (0 ≤ c ∧ c ≤ 15) ∨ max r0 r1 < 0 ∨ 7 < min r0 r1) :
    ∀ p ∈ colSweep c r0 r1, inRange p.1 p.2 = true := by
  rintro ⟨r, c'⟩ hp
  rw [mem_colSweep] at hp
  rw [inRange_iff]
  omega

/-- A column outside leaves the matrix at its first swept row (R84, D30). -/
theorem colSweep_outside {c r0 r1 : Int} (h : ¬(0 ≤ c ∧ c ≤ 15) ∧ 0 ≤ max r0 r1 ∧ min r0 r1 ≤ 7) :
    ∃ p ∈ colSweep c r0 r1, inRange p.1 p.2 = false :=
  ⟨(max (min r0 r1) 0, c), (mem_colSweep ..).mpr (by omega), inRange_eq_false (by omega)⟩

/-! ### The statements -/

/-- Settles O20: SETPIX is the run of one pixel, refreshed; outside the matrix that run only warns. -/
theorem setpixWritesPixelAndRefreshes : Obligations.SetpixWritesPixelAndRefreshes := by
  intro s row col v hinit
  have k := plot_setRsp_keepsWire [(int8 row, int8 col)] v 0x00#8 s
  refine ⟨decode_encode (.setpix row col v) rfl, _, by rw [exec_setpix row col v s hinit, fbSet_eq_plot],
    k.refreshed_portUnchanged, k.refreshed_pinWrites rfl, k.refreshed_tr_length,
    pixelsAre_of_fb_eq (pixelsAre_plot (fun r c _ _ => ?_) v (s.setRsp 0x00#8)) (respond_refresh_fb _),
    fun hin => ?_, fun hout => ⟨?_, ?_⟩⟩
  · rw [List.mem_singleton, Prod.mk.injEq]
  · exact respond_plot_quiet (List.forall_mem_singleton.mpr ((inRange_iff ..).mpr hin)) v s
  · rw [respond_refresh_fb, ← fbSet_eq_plot, fbSet_outside (inRange_eq_false hout), warn_fb, setRsp_fb]
  · exact respond_plot_warns ⟨_, List.mem_singleton_self _, inRange_eq_false hout⟩ v s

/-- Settles O21: the clipped rectangle, refreshed; clipping only drops pixels outside the matrix. -/
theorem rectSetsClippedRectangle : Obligations.RectSetsClippedRectangle := by
  intro s x y w h v hinit
  have k := (plot_keepsWire (rectPixels (int8 x) (int8 y) (int8 w) (int8 h)) v s).setRsp 0x00#8
  refine ⟨decode_encode (.rect x y w h v) rfl, _, by rw [exec_rect x y w h v s hinit, setRsp_refresh],
    k.refreshed_portUnchanged, by rw [respond_refresh_status, setRsp_status, plot_rectPixels_status],
    k.refreshed_responded rfl, k.refreshed_pinWrites rfl,
    pixelsAre_of_fb_eq (pixelsAre_plot (fun r c _ _ => ?_) v s) (respond_refresh_fb _)⟩
  rw [mem_rectPixels]
  omega

/-- Settles O22: the swept row, refreshed. -/
theorem horizontalLineLightsItsRow : Obligations.HorizontalLineLightsItsRow := by
  intro s r0 c0 r1 c1 hinit hr
  have k := plot_setRsp_keepsWire (rowSweep (int8 r0) (int8 c0) (int8 c1)) true 0x00#8 s
  refine ⟨_, exec_line_horizontal c0 c1 hinit hr, k.refreshed_portUnchanged, k.refreshed_pinWrites rfl,
    pixelsAre_of_fb_eq (pixelsAre_plot (fun r c _ _ => ?_) true (s.setRsp 0x00#8)) (respond_refresh_fb _),
    fun h => respond_plot_quiet (rowSweep_inRange h) true s, fun h => respond_plot_warns (rowSweep_outside h) true s⟩
  rw [mem_rowSweep]
  omega

/-- Settles O23: the swept column, refreshed. -/
theorem verticalLineLightsItsColumn : Obligations.VerticalLineLightsItsColumn := by
  intro s r0 c0 r1 c1 hinit hr hc
  have k := plot_setRsp_keepsWire (colSweep (int8 c0) (int8 r0) (int8 r1)) true 0x00#8 s
  refine ⟨_, exec_line_vertical hinit hr hc, k.refreshed_portUnchanged, k.refreshed_pinWrites rfl,
    pixelsAre_of_fb_eq (pixelsAre_plot (fun r c _ _ => ?_) true (s.setRsp 0x00#8)) (respond_refresh_fb _),
    fun h => respond_plot_quiet (colSweep_inRange h) true s, fun h => respond_plot_warns (colSweep_outside h) true s⟩
  rw [mem_colSweep]
  omega

/-- Settles O24: past the gate only the response is written. -/
theorem diagonalLineDoesNothing : Obligations.DiagonalLineDoesNothing := by
  intro s r0 c0 r1 c1 hinit hr hc
  have k := (KeepsWire.refl s).setRsp 0x00#8
  exact ⟨_, exec_line_diagonal hinit hr hc, rfl, rfl, k.responded rfl, k.noPinWrite, k.portUnchanged⟩

/-- Settles O25: FBLOAD's pixels, refreshed. -/
theorem imageLoadsMatrixAndRefreshes : Obligations.ImageLoadsMatrixAndRefreshes := by
  intro s p hinit
  have k := (setFb_keepsWire (unpackImage p) s).setRsp 0x00#8
  refine ⟨decode_encode (.image p) rfl, respond (refresh ((s.setFb (unpackImage p)).setRsp 0x00#8)),
    by rw [exec_image p s hinit, setRsp_refresh], ?_, k.refreshed_pinWrites rfl, k.refreshed_responded rfl,
    by rw [respond_refresh_status, setRsp_status, setFb_status], k.refreshed_portUnchanged⟩
  simp only [toList_getD_eq_byteAt]
  exact pixelsAre_of_fb_eq (pixelsAre_fbload p s) (respond_refresh_fb _)

/-- Settles O26: the payload is the buffer, refreshed. -/
theorem windowLoadsColumnsAndRefreshes : Obligations.WindowLoadsColumnsAndRefreshes := by
  intro s p hinit
  have k := (setFb_keepsWire p s).setRsp 0x00#8
  exact ⟨decode_encode (.window p) rfl, _, by rw [exec_window p s hinit, setRsp_refresh], respond_refresh_fb _,
    k.refreshed_pinWrites (respond_refresh_fb _), k.refreshed_responded rfl,
    by rw [respond_refresh_status, setRsp_status, setFb_status], k.refreshed_portUnchanged⟩

end Sys2Proof.Machine
end

section
/-! PROOFS of the statements about the transport commands and the wire (42_transport_ops.md). A frame is its start
condition, one run of bits, and the rise of the data line, so its transitions and its signalling follow from those of one bit; a
transport command only emits, and the receiver's reading of a frame is `steps_frame`. -/

namespace Sys2Proof.Machine

/-! ### A frame as a run of bits -/

/-- The bits of a frame in wire order, with the extra bit 0 that its end condition begins with (R92, R94, R113). -/
def frameBits (bs : List Byte) : List Bool := bs.flatMap wireBits ++ [false]

/-- A frame is the start condition, its bits, and the rise of the data line that is its stop signal (R91 to R95). -/
theorem frameWrites_eq_bits (bs : List Byte) :
    frameWrites bs = startWrites ++ ((frameBits bs).flatMap bitWrites ++ [dataTo true]) := by
  have hbytes : bs.flatMap byteWrites = (bs.flatMap wireBits).flatMap bitWrites := List.flatMap_assoc.symm
  rw [frameWrites, hbytes, frameBits, List.flatMap_append, List.append_assoc, List.append_assoc]
  rfl

theorem writeAll_startWrites : Lines.high.writeAll startWrites = { clk := true, dio := false } := rfl

theorem frameBits_cons (b : Byte) (bs : List Byte) : frameBits (b :: bs) = wireBits b ++ frameBits bs := by
  rw [frameBits, List.flatMap_cons, List.append_assoc, ← frameBits]

theorem length_frameBits (bs : List Byte) : (frameBits bs).length = 8 * bs.length + 1 := by
  induction bs with
  | nil => rfl
  | cons b bs ih =>
    have hbyte : (wireBits b).length = 8 := rfl
    rw [frameBits_cons, List.length_append, hbyte, ih, List.length_cons]
    omega

/-- A run of bits leaves the clock high and the data line at its last bit (R93). -/
theorem writeAll_bits (bits : List Bool) (d : Level) :
    Lines.writeAll { clk := true, dio := d } (bits.flatMap bitWrites) = { clk := true, dio := bits.getLastD d } := by
  induction bits generalizing d with
  | nil => rfl
  | cons b bits ih =>
    rw [List.flatMap_cons, writeAll_append, List.getLastD_cons]
    exact ih b

/-! ### Transitions -/

theorem transitionsOn_append (line : Line) (l : Lines) (xs ys : List PinWrite) :
    transitionsOn line l (xs ++ ys) = transitionsOn line l xs + transitionsOn line (l.writeAll xs) ys := by
  induction xs generalizing l with
  | nil => exact (Nat.zero_add _).symm
  | cons w xs ih => rw [List.cons_append, transitionsOn, transitionsOn, ih, Nat.add_assoc]; rfl

/-- Every frame starts from idle lines, so the transitions of several are counted frame by frame (R95, R105). -/
theorem transitionsOn_framesWrites (line : Line) (fs : List (List Byte)) :
    transitionsOn line Lines.high (framesWrites fs) =
      (fs.map fun bs => transitionsOn line Lines.high (frameWrites bs)).sum := by
  induction fs with
  | nil => rfl
  | cons bs fs ih =>
    rw [framesWrites_cons, transitionsOn_append, writeAll_frameWrites, ih, List.map_cons, List.sum_cons]

/-- The transitions of a frame are those of its start condition, its bits and its stop signal. -/
theorem transitionsOn_frameWrites (line : Line) (bs : List Byte) :
    transitionsOn line Lines.high (frameWrites bs) =
      transitionsOn line Lines.high startWrites +
        (transitionsOn line { clk := true, dio := false } ((frameBits bs).flatMap bitWrites) +
          transitionsOn line { clk := true, dio := false } [dataTo true]) := by
  rw [frameWrites_eq_bits, transitionsOn_append, transitionsOn_append, writeAll_startWrites, writeAll_bits, frameBits,
    List.getLastD_concat]

theorem transitionsOn_clk_bits (bits : List Bool) (d : Level) :
    transitionsOn .clk { clk := true, dio := d } (bits.flatMap bitWrites) = 2 * bits.length := by
  induction bits generalizing d with
  | nil => rfl
  | cons b bits ih =>
    have hbit : transitionsOn .clk { clk := true, dio := d } (bitWrites b) = 2 := rfl
    have hrest : transitionsOn .clk (Lines.writeAll { clk := true, dio := d } (bitWrites b)) (bits.flatMap bitWrites) =
        2 * bits.length := ih b
    rw [List.flatMap_cons, transitionsOn_append, hbit, hrest, List.length_cons]
    omega

/-- The clock changes twice for every bit and twice in each of the start and end conditions (R96). -/
theorem transitionsOn_clk_frameWrites (bs : List Byte) :
    transitionsOn .clk Lines.high (frameWrites bs) = 4 + 16 * bs.length := by
  have hstart : transitionsOn .clk Lines.high startWrites = 2 := rfl
  have hstop : transitionsOn .clk { clk := true, dio := false } [dataTo true] = 0 := rfl
  rw [transitionsOn_frameWrites, hstart, transitionsOn_clk_bits, hstop, length_frameBits]
  omega

/-- How often a level changes as it takes the values of a list, starting from `d`. `transitionsOn_dio_frameWrites` ties it to the
data line. -/
def bitChanges : Level → List Bool → Nat
  | _, [] => 0
  | d, b :: bits => (if d = b then 0 else 1) + bitChanges b bits

theorem bitChanges_append (d : Level) (xs ys : List Bool) :
    bitChanges d (xs ++ ys) = bitChanges d xs + bitChanges (xs.getLastD d) ys := by
  induction xs generalizing d with
  | nil => exact (Nat.zero_add _).symm
  | cons x xs ih => rw [List.cons_append, bitChanges, bitChanges, ih, Nat.add_assoc, List.getLastD_cons]

theorem transitionsOn_dio_bits (bits : List Bool) (d : Level) :
    transitionsOn .dio { clk := true, dio := d } (bits.flatMap bitWrites) = bitChanges d bits := by
  induction bits generalizing d with
  | nil => rfl
  | cons b bits ih =>
    have hbit : transitionsOn .dio { clk := true, dio := d } (bitWrites b) = if d = b then 0 else 1 := by
      cases d <;> cases b <;> rfl
    have hrest : transitionsOn .dio (Lines.writeAll { clk := true, dio := d } (bitWrites b)) (bits.flatMap bitWrites) =
        bitChanges b bits := ih b
    rw [List.flatMap_cons, transitionsOn_append, hbit, hrest, bitChanges]

/-- The data line falls in the start condition, takes the bits of the frame, and rises in the stop signal (R91 to R95). -/
theorem transitionsOn_dio_frameWrites (bs : List Byte) :
    transitionsOn .dio Lines.high (frameWrites bs) = 2 + bitChanges false (frameBits bs) := by
  have hstart : transitionsOn .dio Lines.high startWrites = 1 := rfl
  have hstop : transitionsOn .dio { clk := true, dio := false } [dataTo true] = 1 := rfl
  rw [transitionsOn_frameWrites, hstart, transitionsOn_dio_bits, hstop]
  omega

theorem transitionsOn_dio_autoIncrement : transitionsOn .dio Lines.high (frameWrites [opAutoIncrement]) = 4 := by
  rw [transitionsOn_dio_frameWrites]
  decide

theorem transitionsOn_dio_displayOn : transitionsOn .dio Lines.high (frameWrites [opDisplayOn]) = 6 := by
  rw [transitionsOn_dio_frameWrites]
  decide

theorem transitionsOn_clk_write3 (addr : Byte) (data : List Byte) :
    transitionsOn .clk Lines.high (write3 addr data) = 60 + 16 * data.length := by
  rw [write3, transitionsOn_framesWrites, write3Frames]
  simp only [transitionsOn_clk_frameWrites, List.map_cons, List.map_nil, List.sum_cons, List.sum_nil, List.length_cons,
    List.length_nil]
  omega

/-- Of the data transitions of a three-frame write only those of its address frame depend on its operands. -/
theorem transitionsOn_dio_write3 (addr : Byte) (data : List Byte) :
    transitionsOn .dio Lines.high (write3 addr data) =
      12 + bitChanges false (frameBits ((opStartAddress + addr) :: data)) := by
  rw [write3, transitionsOn_framesWrites, write3Frames]
  simp only [List.map_cons, List.map_nil, List.sum_cons, List.sum_nil, transitionsOn_dio_autoIncrement,
    transitionsOn_dio_displayOn, transitionsOn_dio_frameWrites (_ :: data)]
  omega

/-- Zero bytes on a low data line change nothing. -/
theorem bitChanges_zeroBytes (n : Nat) (bits : List Bool) :
    bitChanges false ((List.replicate n 0x00#8).flatMap wireBits ++ bits) = bitChanges false bits := by
  induction n with
  | zero => rfl
  | succ n ih =>
    have hzero (rest : List Bool) : bitChanges false (wireBits 0x00#8 ++ rest) = bitChanges false rest := by
      rw [bitChanges_append]
      exact Nat.zero_add _
    rw [List.replicate_succ, List.flatMap_cons, List.append_assoc, hzero, ih]

/-- Trailing zero bytes add no transition, when the bytes before them leave the data line low (R100). -/
theorem bitChanges_trailingZeroBytes {bs : List Byte} (h : (bs.flatMap wireBits).getLastD false = false) (n : Nat) :
    bitChanges false (frameBits (bs ++ List.replicate n 0x00#8)) = bitChanges false (frameBits bs) := by
  rw [frameBits, frameBits, List.flatMap_append, List.append_assoc, bitChanges_append, h, bitChanges_zeroBytes,
    bitChanges_append, h]

/-- A three-frame write of sixteen zero bytes has 14 data transitions (R100). -/
theorem transitionsOn_dio_write3_dark :
    transitionsOn .dio Lines.high (write3 0x00#8 (List.replicate 16 0x00#8)) = 14 := by
  rw [transitionsOn_dio_write3, ← List.singleton_append, bitChanges_trailingZeroBytes (by decide)]
  decide

theorem transitionsOn_powerOn (line : Line) :
    transitionsOn line Lines.high (framesWrites powerOnFrames) =
      transitionsOn line Lines.high (frameWrites [opDisplayOn]) +
        transitionsOn line Lines.high (write3 0x00#8 (List.replicate 16 0x00#8)) := by
  rw [powerOn_eq, transitionsOn_append, writeAll_frameWrites]

/-! ### The signalling of a frame -/

/-- Every write of a list meets `P` at the levels it finds (R90). -/
def EveryWrite (P : Lines → PinWrite → Prop) : Lines → List PinWrite → Prop
  | _, [] => True
  | l, w :: ws => P l w ∧ EveryWrite P (l.write w) ws

theorem everyWrite_append {P : Lines → PinWrite → Prop} {l : Lines} {xs ys : List PinWrite} :
    EveryWrite P l (xs ++ ys) ↔ EveryWrite P l xs ∧ EveryWrite P (l.writeAll xs) ys := by
  induction xs generalizing l with
  | nil => exact ⟨fun h => ⟨trivial, h⟩, And.right⟩
  | cons w xs ih => rw [List.cons_append, EveryWrite, EveryWrite, ih, and_assoc]; rfl

/-- What `EveryWrite` says of the write at one position. -/
theorem EveryWrite.holds_at {P : Lines → PinWrite → Prop} {l : Lines} {ws before after : List PinWrite} {w : PinWrite}
    (h : EveryWrite P l ws) (hws : ws = before ++ w :: after) : P (l.writeAll before) w := by
  rw [hws, everyWrite_append] at h
  obtain ⟨-, hw, -⟩ := h
  exact hw

/-- A write to the clock is a transition (R96 (a)). -/
def ClockMoves (l : Lines) (w : PinWrite) : Prop := w.line = .clk → l.changes w = true

/-- The data line changes only while the clock is low (R96 (b)). -/
def DataWaits (l : Lines) (w : PinWrite) : Prop := w.line = .dio → l.changes w = true → l.clk = false

theorem everyWrite_bits {P : Lines → PinWrite → Prop} (hbit : ∀ d b, EveryWrite P { clk := true, dio := d } (bitWrites b))
    (bits : List Bool) (d : Level) : EveryWrite P { clk := true, dio := d } (bits.flatMap bitWrites) := by
  induction bits generalizing d with
  | nil => trivial
  | cons b bits ih =>
    rw [List.flatMap_cons, everyWrite_append]
    exact ⟨hbit d b, ih b⟩

theorem clockMoves_clockTo (d v : Level) : ClockMoves { clk := !v, dio := d } (clockTo v) := by
  cases v <;> exact fun _ => rfl

theorem clockMoves_dataTo (l : Lines) (v : Level) : ClockMoves l (dataTo v) := fun h => Line.noConfusion h

theorem dataWaits_clockTo (l : Lines) (v : Level) : DataWaits l (clockTo v) := fun h => Line.noConfusion h

theorem dataWaits_dataTo (d v : Level) : DataWaits { clk := false, dio := d } (dataTo v) := fun _ _ => rfl

theorem bit_clockMoves (d b : Bool) : EveryWrite ClockMoves { clk := true, dio := d } (bitWrites b) :=
  ⟨clockMoves_clockTo d false, clockMoves_dataTo _ b, clockMoves_clockTo b true, trivial⟩

theorem bit_dataWaits (d b : Bool) : EveryWrite DataWaits { clk := true, dio := d } (bitWrites b) :=
  ⟨dataWaits_clockTo _ false, dataWaits_dataTo d b, dataWaits_clockTo _ true, trivial⟩

/-- Every clock write of a frame is a transition (R96 (a)). -/
theorem frame_clockMoves (bs : List Byte) : EveryWrite ClockMoves Lines.high (frameWrites bs) := by
  have hstart : EveryWrite ClockMoves Lines.high startWrites :=
    ⟨clockMoves_clockTo true false, clockMoves_clockTo true true, clockMoves_dataTo _ true, clockMoves_dataTo _ false,
      trivial⟩
  rw [frameWrites_eq_bits, everyWrite_append, everyWrite_append]
  exact ⟨hstart, everyWrite_bits bit_clockMoves _ false, clockMoves_dataTo _ true, trivial⟩

/-- A position at least `xs.length` deep in `xs ++ ys ++ [z]` and not the last is a position of `ys`. -/
theorem inside_of_append {α : Type} {xs ys before after : List α} {z w : α} (h : xs ++ (ys ++ [z]) = before ++ w :: after)
    (hlen : xs.length ≤ before.length) (hne : after ≠ []) :
    ∃ before' after', before = xs ++ before' ∧ ys = before' ++ w :: after' := by
  obtain ⟨before', rfl⟩ : xs <+: before :=
    List.prefix_of_prefix_length_le (h ▸ List.prefix_append _ _) (List.prefix_append _ _) hlen
  rw [List.append_assoc, List.append_cancel_left_eq] at h
  have hinit := congrArg List.dropLast h
  rw [List.dropLast_concat, List.dropLast_append_of_ne_nil (List.cons_ne_nil w after),
    List.dropLast_cons_of_ne_nil hne] at hinit
  exact ⟨before', after.dropLast, rfl, hinit⟩

/-- Between the start and the stop signal the data line waits for the clock (R96 (b)). -/
theorem frame_dataWaits {bs : List Byte} {before after : List PinWrite} {w : PinWrite}
    (h : frameWrites bs = before ++ w :: after) (hlen : 4 ≤ before.length) (hne : after ≠ []) :
    DataWaits (Lines.high.writeAll before) w := by
  rw [frameWrites_eq_bits] at h
  obtain ⟨before', after', rfl, hin⟩ := inside_of_append h hlen hne
  rw [writeAll_append]
  exact (everyWrite_bits bit_dataWaits (frameBits bs) false).holds_at hin

/-! ### The receiver -/

/-- The far end's receiver is the receiver of R111, run on its own. -/
theorem steps_rx (f : FarEnd) (ws : List PinWrite) : (f.steps ws).rx = ws.foldl Receiver.step f.rx := by
  induction ws generalizing f with
  | nil => rfl
  | cons w ws ih => exact ih (f.step w)

/-! ### A command that only emits -/

/-- What a command that only emits keeps, and what it sends (R100 to R104). -/
theorem respond_emit (ws : List PinWrite) (s : State) :
    let t := respond (emit ws (s.setRsp 0x00#8))
    t.fb = s.fb ∧ t.status = s.status ∧ Responded s t 0x00#8 ∧ PortUnchanged s t ∧ PinWrites s t ws ∧
      t.tr.length = s.tr.length + ws.length :=
  ⟨rfl, rfl, ⟨rfl, rfl⟩, ⟨rfl, rfl⟩, ⟨rfl, rfl, rfl⟩, List.length_append⟩

theorem exec_refresh_emit {s : State} (h : s.initd = true) :
    exec .refresh s = .next (respond (emit (write3 0x00#8 s.fb.toList) (s.setRsp 0x00#8))) := by
  rw [exec_refresh s h, setRsp_refresh, refresh, setRsp_fb]

theorem exec_pwron_emit {s : State} (h : s.initd = true) :
    exec .pwron s = .next (respond (emit (framesWrites powerOnFrames) (s.setRsp 0x00#8))) := by
  rw [exec_pwron s h, powerOn, setRsp_emit]

theorem exec_txwrite_emit {addr : Byte} {d : List Byte} {s : State} (h : s.initd = true)
    (hfit : ¬malformedWrite addr d = true) :
    exec (.txwrite addr d) s = .next (respond (emit (write3 addr d) (s.setRsp 0x00#8))) := by
  rw [exec_txwrite addr d s h, if_neg hfit]

theorem exec_txwrite_malformed {addr : Byte} {d : List Byte} {s : State} (h : s.initd = true)
    (hbad : malformedWrite addr d = true) : exec (.txwrite addr d) s = .next (respond (s.setRsp 0x00#8)) := by
  rw [exec_txwrite addr d s h, if_pos hbad]

/-- `0xC0 + addr` as a number (R101). -/
theorem opStartAddress_add (addr : Byte) : opStartAddress + addr = BitVec.ofNat 8 (0xC0 + addr.toNat) := by
  rw [BitVec.ofNat_add, BitVec.ofNat_toNat, BitVec.setWidth_eq]
  rfl

/-- The power-on frames, frame by frame (R104). -/
theorem powerOn_eq_frames :
    framesWrites powerOnFrames =
      frameWrites [0x88#8] ++ frameWrites [0x40#8] ++ frameWrites (0xC0#8 :: List.replicate 16 0x00#8) ++
        frameWrites [0x88#8] := by
  rw [powerOn_eq, write3_zero_eq, opDisplayOn, List.append_assoc, List.append_assoc, List.append_assoc]

/-! ### The statements -/

/-- Settles O27: REFRESH only emits the three-frame write of the buffer at address 0. -/
theorem refreshPushesFrameBuffer : Obligations.RefreshPushesFrameBuffer := by
  intro s hinit
  obtain ⟨hfb, hstatus, hresp, hport, hpins, hlen⟩ := respond_emit (write3 0x00#8 s.fb.toList) s
  refine ⟨decode_encode .refresh rfl, _, exec_refresh_emit hinit, hfb, hstatus, hresp, hport, ?_, ?_⟩
  · rw [← write3_zero_eq]
    exact hpins
  · rw [hlen, length_write3, Vector.length_toList]

/-- Settles O28: a TXWRITE that fits only emits its three-frame write. The address byte `0xC0 + addr` for `addr > 0` is the
spec's general knowledge (U3, log entry 12). -/
theorem txwriteEmitsThreeFrames : Obligations.TxwriteEmitsThreeFrames := by
  intro s addr d hinit haddr hne hfit
  have hwf : (Instr.txwrite addr d).wellFormed = true := decide_eq_true (by omega)
  have hok : ¬malformedWrite addr d = true := by
    rw [malformedWrite_iff]
    omega
  obtain ⟨hfb, hstatus, hresp, hport, hpins, hlen⟩ := respond_emit (write3 addr d) s
  rw [length_write3, ← Nat.add_assoc] at hlen
  rw [write3_eq, ← List.append_assoc, opStartAddress_add] at hpins
  exact ⟨decode_encode _ hwf, _, exec_txwrite_emit hinit hok, hfb, hstatus, hresp, hport, hpins, hlen⟩

/-- Settles O29: past the gate only the response is written. -/
theorem malformedTxwriteIsSilent : Obligations.MalformedTxwriteIsSilent := by
  intro s addr d hinit hbad
  rw [← List.length_eq_zero_iff, ← malformedWrite_iff] at hbad
  have k := (KeepsWire.refl s).setRsp 0x00#8
  exact ⟨_, exec_txwrite_malformed hinit hbad, rfl, rfl, k.responded rfl, k.noPinWrite, k.portUnchanged⟩

/-- Settles O30: PWRON only emits the power-on frames, whose transitions are counted frame by frame. -/
theorem pwronSendsFourFrames : Obligations.PwronSendsFourFrames := by
  intro s hinit
  obtain ⟨hfb, hstatus, hresp, hport, hpins, hlen⟩ := respond_emit (framesWrites powerOnFrames) s
  refine ⟨decode_encode .pwron rfl, _, exec_pwron_emit hinit, hfb, hstatus, hresp, hport, ?_, ?_, fun hidle => ?_⟩
  · rw [← powerOn_eq_frames]
    exact hpins
  · rw [hlen, length_powerOn]
  · obtain ⟨-, htr, -⟩ := hpins
    rw [hidle, htr, List.drop_left, transitionsOn_powerOn, transitionsOn_powerOn, transitionsOn_dio_displayOn,
      transitionsOn_dio_write3_dark, transitionsOn_clk_frameWrites, transitionsOn_clk_write3, List.length_replicate]
    decide

/-- Settles O39: the clock moves at every write of a bit and of the two signals, the data line waits for it between them, and the
counts are those of a frame of one byte. -/
theorem frameSignalling : Obligations.FrameSignalling := by
  refine ⟨fun bs before after w _ hws => ⟨(frame_clockMoves bs).holds_at hws, fun hdio hlen hne => ?_⟩,
    fun b => ⟨length_frameWrites [b], transitionsOn_clk_frameWrites [b]⟩, transitionsOn_dio_autoIncrement, ?_,
    transitionsOn_dio_displayOn⟩
  · exact frame_dataWaits hws hlen hne hdio
  · rw [transitionsOn_dio_frameWrites]
    decide

/-- Settles O40: a byte is its eight bits, written out, and leaves the data line at the last of them; both lines end high by
`writeAll_frameWrites`. -/
theorem frameIsStartBytesEnd : Obligations.FrameIsStartBytesEnd :=
  ⟨fun v _ => ⟨length_byteWrites v, rfl⟩, fun bs => ⟨length_frameWrites bs, writeAll_frameWrites _ bs, rfl⟩⟩

/-- Settles O41: the receiver of the far end, on a frame from idle. -/
theorem receiverReadsFrame : Obligations.ReceiverReadsFrame := by
  intro bs done _
  have hframe := congrArg FarEnd.rx (steps_frame bs .outside (.inl rfl) done Sink.unspecified)
  rw [steps_rx] at hframe
  exact hframe

/-- Settles O42: the pin writes of the command's rule, and what whole frames do to an idle link. -/
theorem commandsSendWholeFrames : Obligations.CommandsSendWholeFrames := by
  intro i s t hidle hready hx
  have hopen : ¬GateShut i s := by
    rintro ⟨hneeds, hshut⟩
    exact Bool.false_ne_true (hshut.symm.trans (hready hneeds))
  rw [exec_open hopen] at hx
  obtain rfl := Host.Outcome.next.inj hx
  have hpins := pinWrites_respond (commandRule_pinWrites i s)
  obtain ⟨hlink, hframes, -⟩ := linkIdle_of_pinWrites hidle hpins
  obtain ⟨-, htr, -⟩ := hpins
  exact ⟨htr.trans (List.append_assoc _ _ _).symm, hframes, hlink⟩

/-- Settles O43: the clock transitions follow from the length alone, the data transitions from the bits of the address frame. -/
theorem workedTransitionCounts : Obligations.WorkedTransitionCounts := by
  refine ⟨transitionsOn_clk_write3 .., transitionsOn_dio_write3_dark, transitionsOn_clk_write3 .., ?_,
    transitionsOn_clk_write3 .., ?_⟩
  · rw [transitionsOn_dio_write3, ← List.cons_append, bitChanges_trailingZeroBytes (by decide)]
    decide
  · rw [transitionsOn_dio_write3]
    decide

end Sys2Proof.Machine
end

section
/-! PROOFS of the statements about the system commands (43_system_ops.md). INIT is one emission, of its two line writes and the
power-on frames, over a cleared buffer with `INITD` raised; RDST and CLRST keep the wire, and CLRST masks the sticky bits. -/

namespace Sys2Proof.Machine

/-! ### INIT as one emission -/

/-- The pin writes of INIT in order: the clock line, the data line (D9), then the frames of a power-on (R120). -/
def initWrites : List PinWrite := [clockTo true, dataTo true] ++ framesWrites powerOnFrames

theorem clearFb_emit (ws : List PinWrite) (s : State) : (emit ws s).clearFb = emit ws s.clearFb := rfl

theorem raiseFlag_emit (ws : List PinWrite) (m : Byte) (s : State) : (emit ws s).raiseFlag m = emit ws (s.raiseFlag m) := rfl

/-- INIT emits its pin writes once, over a cleared buffer with `INITD` raised (R120). -/
theorem exec_init_emit (s : State) :
    exec .init s = .next (respond (emit initWrites ((s.clearFb.raiseFlag maskInitd).setRsp 0x00#8))) := by
  rw [exec_init, powerOn, clearFb_emit, raiseFlag_emit, raiseFlag_emit, setRsp_emit, setRsp_emit, initWrites, emit_append]

theorem initWrites_eq_frames :
    initWrites = [clockTo true, dataTo true] ++ frameWrites [0x88#8] ++ frameWrites [0x40#8] ++
      frameWrites (0xC0#8 :: List.replicate 16 0x00#8) ++ frameWrites [0x88#8] := by
  simp only [initWrites, powerOn_eq_frames, List.append_assoc]

theorem length_initWrites : initWrites.length = 514 := by
  rw [initWrites, List.length_append, length_powerOn]
  rfl

/-- Of 356 transitions from idle lines 336 are on the clock and 20 on the data line (R104). -/
theorem transitions_powerOn : transitions Lines.high (framesWrites powerOnFrames) = 356 := by
  rw [transitions, transitionsOn_powerOn, transitionsOn_powerOn, transitionsOn_dio_displayOn, transitionsOn_dio_write3_dark,
    transitionsOn_clk_frameWrites, transitionsOn_clk_write3, List.length_replicate]
  rfl

/-- INIT's two line writes find idle lines high, so only its frames have transitions (R23, R120). -/
theorem transitions_initWrites : transitions Lines.high initWrites = 356 := by
  have hlead (line : Line) : transitionsOn line Lines.high [clockTo true, dataTo true] = 0 := by cases line <;> rfl
  have hhigh : Lines.high.writeAll [clockTo true, dataTo true] = Lines.high := rfl
  rw [transitions, initWrites, transitionsOn_append, transitionsOn_append, hlead, hlead, hhigh, Nat.zero_add, Nat.zero_add]
  exact transitions_powerOn

/-! ### The sticky flags -/

/-- The sticky flags are the bits 1 to 3 of `STATUS` (R14). -/
theorem clearSticky_status_bit (s : State) {k : Nat} (h1 : 1 ≤ k) (h3 : k ≤ 3) : s.clearSticky.status.getLsbD k = false := by
  have hmask : (~~~maskSticky).getLsbD k = false := by
    interval_cases k <;> rfl
  rw [clearSticky_status, BitVec.getLsbD_and, hmask, Bool.and_false]

theorem clearSticky_initd (s : State) : s.clearSticky.initd = s.initd := by
  have hmask : (~~~maskSticky).getLsbD 0 = true := rfl
  rw [State.initd, clearSticky_status, BitVec.getLsbD_and, hmask, Bool.and_true, State.initd]

/-! ### The statements -/

/-- Settles O11: INIT only emits its pin writes over the cleared buffer; their transitions are those of the power-on frames. The
order of the two line writes and the zero buffer are the spec's decision D9. -/
theorem initCommand : Obligations.InitCommand := by
  refine ⟨decode_encode .init rfl, fun s => ?_⟩
  obtain ⟨hfb, hstatus, hresp, hport, hpins, hlen⟩ := respond_emit initWrites (s.clearFb.raiseFlag maskInitd)
  rw [length_initWrites] at hlen
  refine ⟨_, exec_init_emit s, fun c hc => ?_, hstatus, hresp, hport, ?_, hlen, fun hidle => ?_⟩
  · rw [State.column, hfb]
    exact column_clearFb s hc
  · rw [← initWrites_eq_frames]
    exact hpins
  · rw [hidle, respond_tr, emit_tr, setRsp_tr, raiseFlag_tr, clearFb_tr, List.drop_left, transitions_initWrites]

/-- Settles O13: CLRST clears the three sticky bits, and its rule keeps the rest. -/
theorem clrstClearsStickyFlags : Obligations.ClrstClearsStickyFlags := by
  refine ⟨decode_encode .clrst rfl, fun s => ?_⟩
  have k : KeepsWire s (s.clearSticky.setRsp 0x00#8) := ⟨rfl, rfl, rfl, rfl, rfl, rfl⟩
  have hbit {n : Nat} := clearSticky_status_bit s (k := n)
  exact ⟨_, exec_clrst s, hbit (by decide) (by decide), hbit (by decide) (by decide), hbit (by decide) (by decide),
    clearSticky_initd s, (exec_statusRule (exec_clrst s)).reserved, k.responded rfl, rfl, k.noPinWrite, k.portUnchanged⟩

/-- Settles O12: RDST writes the response only. -/
theorem rdstReadsStatus : Obligations.RdstReadsStatus := by
  refine ⟨decode_encode .rdst rfl, fun s => ?_⟩
  have k := (KeepsWire.refl s).setRsp s.readStatus
  exact ⟨_, exec_rdst s, k.responded rfl, rfl, rfl, k.noPinWrite, k.portUnchanged⟩

end Sys2Proof.Machine
end

section
/-! PROOFS of the statements about the host's sequences (45_host_sequences.md). The columns of a text from character `n` on are
the columns of the text's tail, so every place of the bitmap is read off a head; a scroll is a run of WINDOW packets, of which
only the last stays in the frame buffer, and the last start column shows blank columns only. -/

namespace Sys2Proof.Machine

/-! ### Glyph lookup -/

theorem lookupGlyph_congr {c d : Char} (h : c.toUpper = d.toUpper) : lookupGlyph c = lookupGlyph d := by
  rw [lookupGlyph, lookupGlyph, h]

theorem lookupGlyph_unsupported {c : Char} (h : hasGlyph c.toUpper = false) : lookupGlyph c = Config.glyph ' ' :=
  if_neg (Bool.eq_false_iff.mp h)

theorem lookupGlyph_space : lookupGlyph ' ' = Config.glyph ' ' := if_pos (by decide)

theorem lookupGlyph_unsupported_eq_space {c : Char} (h : hasGlyph c.toUpper = false) : lookupGlyph c = lookupGlyph ' ' :=
  (lookupGlyph_unsupported h).trans lookupGlyph_space.symm

theorem textColumns_pair (c d : Char) :
    textColumns [c, d] = (lookupGlyph c).toList ++ 0x00#8 :: (lookupGlyph d).toList := rfl

/-! ### The columns of a text -/

theorem textColumns_cons (c : Char) (cs : List Char) :
    textColumns (c :: cs) = (lookupGlyph c).toList ++ if cs = [] then [] else 0x00#8 :: textColumns cs := by
  cases cs with
  | nil => exact (List.append_nil _).symm
  | cons d ds => rfl

theorem drop_six_textColumns_cons (c : Char) (cs : List Char) : (textColumns (c :: cs)).drop 6 = textColumns cs := by
  rw [textColumns_cons, List.drop_append, List.drop_eq_nil_of_le (by simp), Vector.length_toList, List.nil_append]
  cases cs with
  | nil => rfl
  | cons d ds => rfl

/-- Each character takes six columns, so the columns after `n` characters are those of the rest of the text (R132). -/
theorem drop_textColumns (n : Nat) (text : List Char) : (textColumns text).drop (6 * n) = textColumns (text.drop n) := by
  induction n generalizing text with
  | zero => rfl
  | succ n ih =>
    cases text with
    | nil => exact List.drop_nil
    | cons c cs => rw [Nat.mul_succ, Nat.add_comm, ← List.drop_drop, drop_six_textColumns_cons, ih, List.drop_succ_cons]

/-- Glyphs of five columns with one column between each two (R132). -/
theorem length_textColumns (text : List Char) : (textColumns text).length = 6 * text.length - 1 := by
  induction text with
  | nil => rfl
  | cons c cs ih =>
    rw [textColumns_cons, List.length_append, Vector.length_toList]
    cases cs with
    | nil => rfl
    | cons d ds =>
      rw [if_neg (List.cons_ne_nil d ds), List.length_cons, ih]
      simp only [List.length_cons]
      omega

/-- Column `j` of the six that character `n` takes, read at the head of the rest of the text. -/
theorem textColumns_getElem? (text : List Char) {n : Nat} (h : n < text.length) (j : Nat) :
    (textColumns text)[6 * n + j]? = (textColumns (text[n] :: text.drop (n + 1)))[j]? := by
  rw [← List.getElem?_drop, drop_textColumns, List.drop_eq_getElem_cons h]

theorem textColumns_glyph (text : List Char) {n j : Nat} (h : n < text.length) (hj : j < 5) :
    (textColumns text)[6 * n + j]? = (lookupGlyph text[n]).toList[j]? := by
  rw [textColumns_getElem? text h, textColumns_cons, List.getElem?_append_left (by rwa [Vector.length_toList])]

theorem textColumns_separator (text : List Char) {n : Nat} (h : n + 1 < text.length) :
    (textColumns text)[6 * n + 5]? = some 0x00#8 := by
  have hrest : text.drop (n + 1) ≠ [] := List.drop_eq_nil_iff.not.mpr (Nat.not_le.mpr h)
  rw [textColumns_getElem? text (Nat.lt_of_succ_lt h), textColumns_cons, if_neg hrest,
    List.getElem?_append_right (by rw [Vector.length_toList]), Vector.length_toList]
  rfl

/-! ### The composite bitmap -/

theorem length_render_eq_add (text : List Char) : (render text).length = (textColumns text).length + 32 := by
  rw [render, List.length_append, List.length_append, List.length_replicate]
  omega

theorem length_render (text : List Char) : (render text).length = if text = [] then 32 else 6 * text.length + 31 := by
  rw [length_render_eq_add, length_textColumns]
  cases text with
  | nil => rfl
  | cons c cs =>
    rw [if_neg (List.cons_ne_nil c cs), List.length_cons]
    omega

theorem render_lead (text : List Char) {k : Nat} (h : k < 16) : (render text)[k]? = some 0x00#8 := by
  rw [render, List.append_assoc, List.getElem?_append_left (by rwa [List.length_replicate]), List.getElem?_replicate_of_lt h]

theorem render_text (text : List Char) {k : Nat} (h : k < (textColumns text).length) :
    (render text)[16 + k]? = (textColumns text)[k]? := by
  rw [render, List.append_assoc, List.getElem?_append_right (by rw [List.length_replicate]; omega), List.length_replicate,
    Nat.add_sub_cancel_left, List.getElem?_append_left h]

theorem render_trail (text : List Char) {k : Nat} (hlo : (render text).length - 16 ≤ k) (hhi : k < (render text).length) :
    (render text)[k]? = some 0x00#8 := by
  rw [length_render_eq_add] at hlo hhi
  rw [render, List.getElem?_append_right, List.getElem?_replicate_of_lt] <;>
    rw [List.length_append, List.length_replicate] <;> omega

/-! ### The start columns of a scroll and their windows -/

/-- The last start column of a scroll of a bitmap of length `len` (R140). -/
def lastStart : Direction → Nat → Int
  | .left, len => (len : Int) - 16
  | .right, _ => -16

theorem mem_sweep_left {len : Nat} (h : 16 ≤ len) (k : Int) : k ∈ sweep .left len ↔ 0 ≤ k ∧ k ≤ (len : Int) - 16 := by
  rw [sweep, List.mem_map]
  simp only [List.mem_range]
  constructor
  · rintro ⟨n, hn, rfl⟩
    omega
  · intro hk
    exact ⟨k.toNat, by omega, by omega⟩

theorem mem_sweep_right (len : Nat) (k : Int) : k ∈ sweep .right len ↔ -16 ≤ k ∧ k ≤ (len : Int) - 16 := by
  rw [sweep, List.mem_map]
  simp only [List.mem_range]
  constructor
  · rintro ⟨n, hn, rfl⟩
    omega
  · intro hk
    exact ⟨((len : Int) - 16 - k).toNat, by omega, by omega⟩

theorem sweep_left_ascends (len : Nat) : (sweep .left len).Pairwise (fun a b => a < b) :=
  List.pairwise_lt_range.map _ fun _ _ => Int.ofNat_lt.mpr

theorem sweep_right_descends (len : Nat) : (sweep .right len).Pairwise (fun a b => b < a) :=
  List.pairwise_lt_range.map _ fun a b (hab : a < b) => by omega

theorem getLast?_map_range {α : Type} (f : Nat → α) {n : Nat} (h : n ≠ 0) :
    ((List.range n).map f).getLast? = some (f (n - 1)) := by
  rw [List.getLast?_map, List.getLast?_range, if_neg h, Option.map_some]

theorem sweep_getLast? (dir : Direction) {len : Nat} (h : 16 ≤ len) : (sweep dir len).getLast? = some (lastStart dir len) := by
  cases dir with
  | left =>
    have hend : ((len - 15 - 1 : Nat) : Int) = lastStart .left len := by rw [lastStart]; omega
    rw [sweep, getLast?_map_range _ (by omega), hend]
  | right =>
    have hend : (len : Int) - 16 - (len + 1 - 1 : Nat) = lastStart .right len := by rw [lastStart]; omega
    rw [sweep, getLast?_map_range _ (Nat.succ_ne_zero len), hend]

theorem byteAt_windowAt (bitmap : List Byte) (k : Int) {c : Nat} (hc : c < 16) :
    byteAt (windowAt bitmap k) c =
      if 0 ≤ k + (c : Int) ∧ k + (c : Int) < bitmap.length then bitmap.getD (k + (c : Int)).toNat 0x00#8 else 0x00#8 :=
  byteAt_ofFn _ c hc

/-- A scroll to the left ends on the bitmap's blank trail, a scroll to the right before its first column (R132, R140). -/
theorem lastWindow_dark (text : List Char) (dir : Direction) {c : Nat} (hc : c < 16) :
    byteAt (windowAt (render text) (lastStart dir (render text).length)) c = 0x00#8 := by
  rw [byteAt_windowAt _ _ hc]
  cases dir with
  | left =>
    rw [lastStart]
    split
    · rw [List.getD_eq_getElem?_getD, render_trail text (by omega) (by omega), Option.getD_some]
    · rfl
  | right =>
    rw [lastStart]
    exact if_neg (by omega)

/-! ### A run of WINDOW packets -/

theorem scroll_eq_windows (bitmap : List Byte) (dir : Direction) :
    scroll bitmap dir = ((sweep dir bitmap.length).map (windowAt bitmap)).map .window :=
  (List.map_map ..).symm

theorem execAll_cons {i : Instr} {s t : State} (h : exec i s = .next t) (is : List Instr) :
    execAll (i :: is) s = execAll is t := by
  simp only [execAll, h]

/-- Windows one after the other: the last one stays, `STATUS` is kept, each answers `0x00` (R88, R140). -/
theorem execAll_windows (ws : List Bytes16) {s : State} (hinit : s.initd = true) :
    ∃ t, execAll (ws.map .window) s = .next t ∧ t.fb = ws.getLastD s.fb ∧ t.status = s.status ∧
      t.rs = s.rs ++ List.replicate ws.length 0x00#8 := by
  induction ws generalizing s with
  | nil => exact ⟨s, rfl, rfl, rfl, (List.append_nil _).symm⟩
  | cons w ws ih =>
    obtain ⟨-, u, hx, hfb, -, ⟨hrs, -⟩, hstatus, -⟩ := windowLoadsColumnsAndRefreshes s w hinit
    obtain ⟨t, hrun, htfb, htstatus, htrs⟩ := ih ((exec_statusRule hx).initd hinit)
    refine ⟨t, by rw [List.map_cons, execAll_cons hx, hrun], by rw [htfb, hfb, List.getLastD_cons], htstatus.trans hstatus, ?_⟩
    rw [htrs, hrs, List.append_assoc, List.length_cons, List.replicate_succ, List.singleton_append]

/-! ### The statements -/

/-- Settles O52: the text's columns between two blank runs, each character at the head of the columns that are left. -/
theorem renderedTextLayout : Obligations.RenderedTextLayout := by
  intro text
  have hlen := length_render_eq_add text
  have hcols := length_textColumns text
  refine ⟨length_render text, fun k hk => ⟨render_lead text hk, render_trail text (by omega) (by omega)⟩, fun n h => ⟨?_, ?_⟩⟩
  · intro j hj
    rw [Nat.add_assoc, render_text text (by omega), textColumns_glyph text h hj]
  · intro hnext
    rw [Nat.add_assoc, render_text text (by omega), textColumns_separator text hnext]

/-- Settles O53: lookup sees a character only through its upper case, and rendering sees it only through lookup. -/
theorem unsupportedCharacterIsSpace : Obligations.UnsupportedCharacterIsSpace := by
  refine ⟨fun c => lookupGlyph_unsupported_eq_space, fun c d => lookupGlyph_congr,
    lookupGlyph_unsupported_eq_space (by decide), lookupGlyph_congr (by decide), lookupGlyph_congr (by decide), ?_⟩
  intro c d h
  rw [render, render, textColumns_pair, textColumns_pair, lookupGlyph_unsupported_eq_space h]

/-- Settles O54: both sweeps are monotone images of a range, and the packets are the sweep's windows. -/
theorem scrollSweepCoverage : Obligations.ScrollSweepCoverage := by
  intro bitmap h
  refine ⟨mem_sweep_left h, sweep_left_ascends _, mem_sweep_right _, sweep_right_descends _, fun dir n k hk => ?_⟩
  refine ⟨windowAt bitmap k, ?_, fun c hc => byteAt_windowAt bitmap k hc⟩
  rw [scroll, List.getElem?_map, hk, Option.map_some]

/-- Settles O55: the run of windows leaves its last one, which is dark. -/
theorem scrollEndsDark : Obligations.ScrollEndsDark := by
  intro s text dir hinit
  have hlen : 16 ≤ (render text).length := by rw [length_render_eq_add]; omega
  obtain ⟨t, hrun, hfb, hstatus, hrs⟩ :=
    execAll_windows ((sweep dir (render text).length).map (windowAt (render text))) hinit
  rw [List.getLastD_eq_getLast?, List.getLast?_map, sweep_getLast? dir hlen, Option.map_some, Option.getD_some] at hfb
  rw [scrollText, scroll_eq_windows]
  refine ⟨t, hrun, fun c hc => ?_, hstatus, by rwa [List.length_map (f := Instr.window)]⟩
  rw [State.column, hfb, lastWindow_dark text dir hc]

end Sys2Proof.Machine
end

section
/-! PROOFS of the statements about errors (60_exceptions.md). Both containments raise one flag and answer its mask, so one lemma
says what they leave alone; that every step answers follows from the gate, the decoder and the cases of the port. -/

namespace Sys2Proof.Machine

/-! ### What containment leaves alone -/

/-- Raising a flag and setting the response, as both containments do (R152, R153), leaves the wire and the port. -/
theorem raiseFlag_setRsp_keepsWire (mask b : Byte) (s : State) : KeepsWire s ((s.raiseFlag mask).setRsp b) :=
  ⟨rfl, rfl, rfl, rfl, rfl, rfl⟩

/-! ### Every command, packet and step answers -/

theorem runPacket_illegal {packet : List Byte} {e : Illegal} (h : decode packet = .error e) (s : State) :
    runPacket packet s = .next (containIllegal s) := by
  rw [runPacket, h]

/-- Every command completes, at the gate or past it (R178). -/
theorem exec_answers_next (i : Instr) (s : State) : ∃ t, exec i s = .next t := by
  by_cases hg : GateShut i s
  · exact ⟨_, exec_shut hg⟩
  · exact ⟨_, exec_open hg⟩

/-- No packet traps, legal or not (R150). -/
theorem runPacket_answers_next (packet : List Byte) (s : State) : ∃ t, runPacket packet s = .next t := by
  cases hd : decode packet with
  | ok i =>
    rw [runPacket, hd]
    exact exec_answers_next i s
  | error e => exact ⟨_, runPacket_illegal hd s⟩

/-! ### The statements -/

/-- Settles O7: the step runs the packet, which does not decode, so it is contained. -/
theorem illegalPacketIsContained : Obligations.IllegalPacketIsContained := by
  intro s packet rest e hp hd
  have hstep := (step_presents hp).trans (runPacket_illegal hd _)
  have k := raiseFlag_setRsp_keepsWire maskIll maskIll { s with packet := [], input := rest }
  obtain ⟨hpacket, hinput⟩ := k.portUnchanged
  exact ⟨_, hstep, rfl, k.responded rfl, rfl, k.noPinWrite, hpacket, hinput⟩

/-- Settles O8: the gate is shut, so the command is contained. -/
theorem commandBeforeInitIsContained : Obligations.CommandBeforeInitIsContained := by
  intro i s hneeds hinit
  have k := raiseFlag_setRsp_keepsWire maskNoInit maskNoInit s
  exact ⟨_, exec_early i s hneeds hinit, rfl, k.responded rfl, rfl, k.noPinWrite, k.portUnchanged⟩

/-- Settles O31: the host's moves make a packet, a reset while busy, a reset while idle, or neither; each has an answer. -/
theorem everyStepAnswersNext : Obligations.EveryStepAnswersNext := by
  intro s
  obtain ⟨packet, rest, hp⟩ | ⟨rest, hc⟩ | ⟨rest, hr⟩ | ⟨bs, hq⟩ := port_cases s
  · rw [step_presents hp]
    exact runPacket_answers_next packet _
  · exact ⟨_, step_cutsShort hc⟩
  · exact ⟨_, step_resetsIdle hr⟩
  · exact ⟨_, step_quiet hq⟩

end Sys2Proof.Machine
end

section
/-! PROOFS of the statements about reset and the length of commands (70_reset_and_hazards.md). The pin writes of an executed
command are those of its leading writes and its frames, so their number follows from the frames; either reset leaves the block as
`State.reset` has it and differs only in the host's moves and the far end. -/

namespace Sys2Proof.Machine

/-! ### The number of pin writes -/

theorem length_refreshFrames (fb : Bytes16) : (framesWrites (refreshFrames fb)).length = 480 := by
  rw [refreshFrames_eq, ← write3, length_write3, Vector.length_toList]

/-- The writes a command's rule puts on the wire are as many as R180 lists for it. -/
theorem length_commandWrites (i : Instr) (fb : Bytes16) :
    (leadingWrites i ++ framesWrites (commandFrames i fb)).length = pinWriteCount i := by
  cases i with
  | init => exact length_initWrites
  | pwron => exact length_powerOn
  | rdst | clrst | fbget | fbset | fbclr | fbload => rfl
  | refresh | setpix | rect | image | window => exact length_refreshFrames fb
  | line r0 c0 r1 c1 =>
    simp only [commandFrames, pinWriteCount]
    split
    · exact length_refreshFrames fb
    · rfl
  | txwrite addr d =>
    simp only [commandFrames, pinWriteCount, malformedWrite_iff]
    split
    · rfl
    · exact length_write3 addr d

/-- The longest command is INIT; a TXWRITE of 16 bytes stays below it (R178, R180). -/
theorem pinWriteCount_le {i : Instr} (h : i.wellFormed = true) : pinWriteCount i ≤ 514 := by
  cases i with
  | txwrite addr d =>
    have hd : d.length ≤ 16 := of_decide_eq_true h
    simp only [pinWriteCount]
    split <;> omega
  | line r0 c0 r1 c1 =>
    simp only [pinWriteCount]
    split <;> decide
  | _ => simp [pinWriteCount]

/-- A command whose need of INIT is met passes the gate (R57, R153). -/
theorem gate_open_of_ready {i : Instr} {s : State} (h : NeedsInit i = true → s.initd = true) : ¬GateShut i s := by
  rintro ⟨hneeds, hshut⟩
  exact Bool.false_ne_true (hshut.symm.trans (h hneeds))

/-! ### The block after a reset -/

/-- Whatever the host's moves and the far end: the block's own parts are at their reset values (R170). -/
theorem blockAtReset_reset (input : List HostMove) (far : FarEnd) :
    BlockAtReset { State.reset with input := input, far := far } :=
  ⟨fun c hc => byteAt_replicate _ c hc, rfl, rfl, rfl, rfl, rfl, rfl⟩

theorem blockAtReset_idleReset (s : State) : BlockAtReset (idleReset s) := blockAtReset_reset _ _

theorem blockAtReset_busyReset (s : State) : BlockAtReset (busyReset s) := blockAtReset_reset _ _

/-- An abandoned sequencer has nothing pending and no hold, whatever it was doing (R170, R172). -/
theorem abandon_idle (q : Sequencer) : q.abandon.busy = false ∧ q.abandon.lines = Lines.high := ⟨rfl, rfl⟩

/-! ### The receiver after a command -/

/-- A receiver that sees idle lines has both of them high. -/
theorem far_eq_farAt {s : State} (h : LinkIdle s) :
    s.far = farAt true true s.far.rx.phase s.far.rx.frames s.far.sink := by
  have hseen : s.far.rx.lines = { clk := true, dio := true } := h.seen
  rw [farAt, ← hseen]

/-- After at least one whole frame the receiver stands outside a frame, even if its position was unknown (R112, R172). -/
theorem steps_frames_outside {s : State} (h : LinkIdle s) {fs : List (List Byte)} (hne : fs ≠ []) :
    (s.far.steps (framesWrites fs)).rx.phase = .outside := by
  obtain ⟨p, -, hout, hsteps⟩ := steps_frames fs s.far.rx.phase h.closed s.far.rx.frames s.far.sink
  rw [far_eq_farAt h, hsteps]
  exact hout hne

/-- INIT from an idle link leaves the receiver outside a frame: its line writes do nothing, then its frames pass (R120). -/
theorem exec_init_outside {s t : State} (h : LinkIdle s) (hx : exec .init s = .next t) : t.far.rx.phase = .outside := by
  rw [exec_open (gate_open_init s)] at hx
  obtain rfl := Host.Outcome.next.inj hx
  obtain ⟨-, -, hfar⟩ := init_pinWrites s
  obtain ⟨-, hlead⟩ := emit_leadingWrites .init s h
  rw [emit_far, leadingWrites, if_pos rfl] at hlead
  rw [respond_far, hfar, steps_append, hlead]
  exact steps_frames_outside h (List.cons_ne_nil _ _)

/-! ### The statements -/

/-- Settles O36: the rule's pin writes are the leading writes and the frames, which are counted. -/
theorem pinWriteCounts : Obligations.PinWriteCounts := by
  intro i s t hwf hready hx
  rw [exec_open (gate_open_of_ready hready)] at hx
  obtain rfl := Host.Outcome.next.inj hx
  obtain ⟨-, htr, -⟩ := commandRule_pinWrites i s
  have hlen := length_commandWrites i (commandRule i s).fb
  exact ⟨_, htr, hlen, hlen ▸ pinWriteCount_le hwf⟩

/-- Settles O49: the reset replaces all of the block, and the far end only restarts its observations. That waits inside the packet
have no effect is the model's reading (log entry 22). -/
theorem idleResetRestoresTheBlock : Obligations.IdleResetRestoresTheBlock :=
  ⟨fun _ _ h => ⟨_, step_resetsIdle h, blockAtReset_idleReset _, rfl, rfl⟩, abandon_idle, blockAtReset_reset _ _⟩

/-- Settles O50: the reset keeps the invariant, so the next INIT finds an idle link and a running sink, and its frames make both
known. What the display is until then is the model's reading of U5 (log entry 3). -/
theorem busyResetForgetsTheDisplay : Obligations.BusyResetForgetsTheDisplay := by
  intro s rest hinv hcut
  have hstep := step_cutsShort hcut
  have hinv' := everyStepKeepsInvariant s _ hinv hstep
  obtain ⟨u, hx⟩ := exec_answers_next .init (busyReset { s with input := rest })
  exact ⟨_, u, hstep, blockAtReset_busyReset _, rfl, rfl, fun _ => rfl, rfl, rfl, rfl, rfl, hx,
    powerOnClearsTheDisplay .init _ u hinv' (.inl rfl) hx, exec_init_outside hinv'.link hx⟩

/-- Settles O37: reset leaves the link idle, the observations empty and the sink with no cell written, not stopped. -/
theorem resetMeetsInvariant : Obligations.ResetMeetsInvariant where
  link := ⟨rfl, rfl, .inl rfl⟩
  traced := rfl
  reserved := by decide
  responses := fun _ hb => nomatch hb
  canonical := wf_nil
  running := rfl

end Sys2Proof.Machine
end
